-- ==== Sys2Proof/Word.lean ====
section
/-! DEFINITION. The words of the BFIU: store bytes, 64-bit words and 32-bit command words (00_scope.md R10, R11). -/

namespace Sys2Proof

/-- One byte cell of the BitWord Store (log 3). -/
abbrev Byte := BitVec 8

/-- A 64-bit pattern: a store word, a native register, or the container of a value register. -/
abbrev Word := BitVec 64

/-- A 32-bit command word (30_encoding.md R70). -/
abbrev Cmd := BitVec 32

end Sys2Proof
end

