-- ==== Sys2Proof/Syntax.lean ====
section
/-! DEFINITION. The commands of the BFIU: one constructor per row of the opcode table (30_encoding.md R78), with the register
file of each field as R75 gives it. -/

namespace Sys2Proof

/-- The number of a native register `X0`..`X15` (10_state.md R21). -/
structure XReg where
  num : BitVec 4
deriving DecidableEq, Repr

/-- The number of a value register `V0`..`V15` (10_state.md R23). -/
structure VReg where
  num : BitVec 4
deriving DecidableEq, Repr

/-- One command. `d` is the destination (field D), `a` and `b` the sources (fields A and B); in the codec commands field D is
`d` or `src`, A is `idx` and B is `off`. -/
inductive Instr where
  /-- `XLI xd, #imm` (41_value.md R121). -/
  | xli (d : XReg) (imm : Int)
  /-- `SETRAW vd, xa` (41_value.md R122). -/
  | setraw (d : VReg) (a : XReg)
  /-- `GET xd, va` (41_value.md R123). -/
  | get (d : XReg) (a : VReg)
  /-- `TOBF xd, va` (41_value.md R124). -/
  | tobf (d : XReg) (a : VReg)
  /-- `SETCHK vd, xa` (41_value.md R127). -/
  | setchk (d : VReg) (a : XReg)
  /-- `ZERO vd` (41_value.md R128). -/
  | zero (d : VReg)
  /-- `COPY vd, va` (41_value.md R129). -/
  | copy (d a : VReg)
  /-- `MAXB vd` (41_value.md R130). -/
  | maxb (d : VReg)
  /-- `MINB vd` (41_value.md R131). -/
  | minb (d : VReg)
  /-- `DECODE xd, xi, xo, #w` (40_codec.md R101). -/
  | decode (d idx off : XReg) (w : Nat)
  /-- `ENCODE xs, xi, xo, #w` (40_codec.md R102). -/
  | encode (src idx off : XReg) (w : Nat)
  /-- `LDV vd, xi, xo` (40_codec.md R103). -/
  | ldv (d : VReg) (idx off : XReg)
  /-- `STV vs, xi, xo` (40_codec.md R104). -/
  | stv (src : VReg) (idx off : XReg)
  /-- `ADD vd, va, vb` (42_arith.md R150). -/
  | add (d a b : VReg)
  /-- `SUB vd, va, vb` (42_arith.md R151). -/
  | sub (d a b : VReg)
  /-- `MUL vd, va, vb` (42_arith.md R152). -/
  | mul (d a b : VReg)
  /-- `DIV vd, va, vb` (42_arith.md R153). -/
  | div (d a b : VReg)
  /-- `MOD vd, va, vb` (42_arith.md R154). -/
  | mod (d a b : VReg)
  /-- `NEG vd, va` (42_arith.md R155). -/
  | neg (d a : VReg)
  /-- `ABS vd, va` (42_arith.md R156). -/
  | abs (d a : VReg)
  /-- `SUCC vd, va` (42_arith.md R157). -/
  | succ (d a : VReg)
  /-- `PRED vd, va` (42_arith.md R158). -/
  | pred (d a : VReg)
  /-- `GCD vd, va, vb` (42_arith.md R159). -/
  | gcd (d a b : VReg)
  /-- `LCM vd, va, vb` (42_arith.md R160). -/
  | lcm (d a b : VReg)
  /-- `POW vd, va, vb` (42_arith.md R161). -/
  | pow (d a b : VReg)
  /-- `SHL vd, va, xb` (43_bitops.md R181). -/
  | shl (d a : VReg) (b : XReg)
  /-- `SHR vd, va, xb` (43_bitops.md R182). -/
  | shr (d a : VReg) (b : XReg)
  /-- `SHRZ vd, va, xb` (43_bitops.md R183). -/
  | shrz (d a : VReg) (b : XReg)
  /-- `ROTL vd, va, xb` (43_bitops.md R184). -/
  | rotl (d a : VReg) (b : XReg)
  /-- `ROTR vd, va, xb` (43_bitops.md R185). -/
  | rotr (d a : VReg) (b : XReg)
  /-- `AND vd, va, vb` (43_bitops.md R186). -/
  | and (d a b : VReg)
  /-- `OR vd, va, vb` (43_bitops.md R187). -/
  | or (d a b : VReg)
  /-- `XOR vd, va, vb` (43_bitops.md R188). -/
  | xor (d a b : VReg)
  /-- `NOT vd, va` (43_bitops.md R189). -/
  | not (d a : VReg)
  /-- `CMP xd, va, vb` (44_compare_random.md R210). -/
  | cmp (d : XReg) (a b : VReg)
  /-- `EQ xd, va, vb` (44_compare_random.md R211). -/
  | eq (d : XReg) (a b : VReg)
  /-- `NE xd, va, vb` (44_compare_random.md R212). -/
  | ne (d : XReg) (a b : VReg)
  /-- `LT xd, va, vb` (44_compare_random.md R213). -/
  | lt (d : XReg) (a b : VReg)
  /-- `LE xd, va, vb` (44_compare_random.md R214). -/
  | le (d : XReg) (a b : VReg)
  /-- `GT xd, va, vb` (44_compare_random.md R215). -/
  | gt (d : XReg) (a b : VReg)
  /-- `GE xd, va, vb` (44_compare_random.md R216). -/
  | ge (d : XReg) (a b : VReg)
  /-- `RAND vd` (44_compare_random.md R218). -/
  | rand (d : VReg)
deriving DecidableEq, Repr

end Sys2Proof
end

