-- ==== Sys2Proof/WellFormed.lean ====
section
/-! DEFINITION. Which commands have an encoding: the immediates in the ranges of 30_encoding.md R76 (R83: the assembler
rejects an immediate out of range). Register numbers are in range by their type. -/

namespace Sys2Proof

/-- `IMM20` is in -524288..524287 and the codec width `W` is in 0..127 (30_encoding.md R76). -/
def Instr.wellFormed : Instr → Bool
  | .xli _ imm => decide (-524288 ≤ imm) && decide (imm ≤ 524287)
  | .decode _ _ _ w => decide (w ≤ 127)
  | .encode _ _ _ w => decide (w ≤ 127)
  | .setraw _ _ => true
  | .get _ _ => true
  | .tobf _ _ => true
  | .setchk _ _ => true
  | .zero _ => true
  | .copy _ _ => true
  | .maxb _ => true
  | .minb _ => true
  | .ldv _ _ _ => true
  | .stv _ _ _ => true
  | .add _ _ _ => true
  | .sub _ _ _ => true
  | .mul _ _ _ => true
  | .div _ _ _ => true
  | .mod _ _ _ => true
  | .neg _ _ => true
  | .abs _ _ => true
  | .succ _ _ => true
  | .pred _ _ => true
  | .gcd _ _ _ => true
  | .lcm _ _ _ => true
  | .pow _ _ _ => true
  | .shl _ _ _ => true
  | .shr _ _ _ => true
  | .shrz _ _ _ => true
  | .rotl _ _ _ => true
  | .rotr _ _ _ => true
  | .and _ _ _ => true
  | .or _ _ _ => true
  | .xor _ _ _ => true
  | .not _ _ => true
  | .cmp _ _ _ => true
  | .eq _ _ _ => true
  | .ne _ _ _ => true
  | .lt _ _ _ => true
  | .le _ _ _ => true
  | .gt _ _ _ => true
  | .ge _ _ _ => true
  | .rand _ => true

end Sys2Proof
end

