-- ==== Sys2Proof/Decode.lean ====
section
/-! DEFINITION. The decoder and the encoder, from the tables of 30_encoding.md R71 to R82. Commands arrive as whole 32-bit
words (20_memory.md R51), so there is no byte order here. -/

namespace Sys2Proof

/-- The fields of a command word, before the opcode says which register file each names (30_encoding.md R71, R73, R74). -/
structure Fields where
  d : BitVec 4
  a : BitVec 4
  b : BitVec 4
  w : Nat
  imm : Int

/-- `D = cmd[23:20]`, `A = cmd[19:16]`, `B = cmd[15:12]`, `W = cmd[6:0]` zero-extended, `IMM20 = cmd[19:0]` sign-extended
(30_encoding.md R71, R76). -/
def fieldsOf (cmd : Cmd) : Fields where
  d := cmd.extractLsb' 20 4
  a := cmd.extractLsb' 16 4
  b := cmd.extractLsb' 12 4
  w := (cmd.extractLsb' 0 7).toNat
  imm := (cmd.extractLsb' 0 20).toInt

def Fields.xd (f : Fields) : XReg := ⟨f.d⟩
def Fields.xa (f : Fields) : XReg := ⟨f.a⟩
def Fields.xb (f : Fields) : XReg := ⟨f.b⟩
def Fields.vd (f : Fields) : VReg := ⟨f.d⟩
def Fields.va (f : Fields) : VReg := ⟨f.a⟩
def Fields.vb (f : Fields) : VReg := ⟨f.b⟩

/-- One row of the opcode table: `mask` covers the opcode and every must-be-zero bit, and a word selects the row when
`cmd & mask == match` (30_encoding.md R78). -/
structure Row where
  mnemonic : String
  mask : Cmd
  bits : Cmd
  build : Fields → Instr

/-- The rows of R78 for XLI, the normalizer, construction and bounds group. -/
def valueRows : List Row :=
  [
    ⟨"XLI", 0xFF000000, 0x01000000, fun f => .xli f.xd f.imm⟩,
    ⟨"SETRAW", 0xFF00FFFF, 0x10000000, fun f => .setraw f.vd f.xa⟩,
    ⟨"GET", 0xFF00FFFF, 0x11000000, fun f => .get f.xd f.va⟩,
    ⟨"TOBF", 0xFF00FFFF, 0x12000000, fun f => .tobf f.xd f.va⟩,
    ⟨"SETCHK", 0xFF00FFFF, 0x13000000, fun f => .setchk f.vd f.xa⟩,
    ⟨"ZERO", 0xFF0FFFFF, 0x14000000, fun f => .zero f.vd⟩,
    ⟨"COPY", 0xFF00FFFF, 0x15000000, fun f => .copy f.vd f.va⟩,
    ⟨"MAXB", 0xFF0FFFFF, 0x16000000, fun f => .maxb f.vd⟩,
    ⟨"MINB", 0xFF0FFFFF, 0x17000000, fun f => .minb f.vd⟩
  ]

/-- The rows of R78 for the codec group. -/
def codecRows : List Row :=
  [
    ⟨"DECODE", 0xFF000F80, 0x20000000, fun f => .decode f.xd f.xa f.xb f.w⟩,
    ⟨"ENCODE", 0xFF000F80, 0x21000000, fun f => .encode f.xd f.xa f.xb f.w⟩,
    ⟨"LDV", 0xFF000FFF, 0x22000000, fun f => .ldv f.vd f.xa f.xb⟩,
    ⟨"STV", 0xFF000FFF, 0x23000000, fun f => .stv f.vd f.xa f.xb⟩
  ]

/-- The rows of R78 for the arithmetic group. -/
def arithRows : List Row :=
  [
    ⟨"ADD", 0xFF000FFF, 0x30000000, fun f => .add f.vd f.va f.vb⟩,
    ⟨"SUB", 0xFF000FFF, 0x31000000, fun f => .sub f.vd f.va f.vb⟩,
    ⟨"MUL", 0xFF000FFF, 0x32000000, fun f => .mul f.vd f.va f.vb⟩,
    ⟨"DIV", 0xFF000FFF, 0x33000000, fun f => .div f.vd f.va f.vb⟩,
    ⟨"MOD", 0xFF000FFF, 0x34000000, fun f => .mod f.vd f.va f.vb⟩,
    ⟨"NEG", 0xFF00FFFF, 0x35000000, fun f => .neg f.vd f.va⟩,
    ⟨"ABS", 0xFF00FFFF, 0x36000000, fun f => .abs f.vd f.va⟩,
    ⟨"SUCC", 0xFF00FFFF, 0x37000000, fun f => .succ f.vd f.va⟩,
    ⟨"PRED", 0xFF00FFFF, 0x38000000, fun f => .pred f.vd f.va⟩,
    ⟨"GCD", 0xFF000FFF, 0x39000000, fun f => .gcd f.vd f.va f.vb⟩,
    ⟨"LCM", 0xFF000FFF, 0x3A000000, fun f => .lcm f.vd f.va f.vb⟩,
    ⟨"POW", 0xFF000FFF, 0x3B000000, fun f => .pow f.vd f.va f.vb⟩
  ]

/-- The rows of R78 for the shift, rotate and bitwise group. -/
def bitRows : List Row :=
  [
    ⟨"SHL", 0xFF000FFF, 0x40000000, fun f => .shl f.vd f.va f.xb⟩,
    ⟨"SHR", 0xFF000FFF, 0x41000000, fun f => .shr f.vd f.va f.xb⟩,
    ⟨"SHRZ", 0xFF000FFF, 0x42000000, fun f => .shrz f.vd f.va f.xb⟩,
    ⟨"ROTL", 0xFF000FFF, 0x43000000, fun f => .rotl f.vd f.va f.xb⟩,
    ⟨"ROTR", 0xFF000FFF, 0x44000000, fun f => .rotr f.vd f.va f.xb⟩,
    ⟨"AND", 0xFF000FFF, 0x45000000, fun f => .and f.vd f.va f.vb⟩,
    ⟨"OR", 0xFF000FFF, 0x46000000, fun f => .or f.vd f.va f.vb⟩,
    ⟨"XOR", 0xFF000FFF, 0x47000000, fun f => .xor f.vd f.va f.vb⟩,
    ⟨"NOT", 0xFF00FFFF, 0x48000000, fun f => .not f.vd f.va⟩
  ]

/-- The rows of R78 for the comparison group and RAND. -/
def compareRows : List Row :=
  [
    ⟨"CMP", 0xFF000FFF, 0x50000000, fun f => .cmp f.xd f.va f.vb⟩,
    ⟨"EQ", 0xFF000FFF, 0x51000000, fun f => .eq f.xd f.va f.vb⟩,
    ⟨"NE", 0xFF000FFF, 0x52000000, fun f => .ne f.xd f.va f.vb⟩,
    ⟨"LT", 0xFF000FFF, 0x53000000, fun f => .lt f.xd f.va f.vb⟩,
    ⟨"LE", 0xFF000FFF, 0x54000000, fun f => .le f.xd f.va f.vb⟩,
    ⟨"GT", 0xFF000FFF, 0x55000000, fun f => .gt f.xd f.va f.vb⟩,
    ⟨"GE", 0xFF000FFF, 0x56000000, fun f => .ge f.xd f.va f.vb⟩,
    ⟨"RAND", 0xFF0FFFFF, 0x60000000, fun f => .rand f.vd⟩
  ]

/-- The complete opcode table (30_encoding.md R78). -/
def opcodeRows : List Row := valueRows ++ codecRows ++ arithRows ++ bitRows ++ compareRows

/-- `cmd & row.mask == row.match` (30_encoding.md R78). -/
def Row.selects (r : Row) (cmd : Cmd) : Bool := (cmd &&& r.mask) == r.bits

/-- Why a word is no command. Both raise `IllegalCommand` (60_exceptions.md R230). -/
inductive Illegal where
  /-- The opcode is in no row of the table (30_encoding.md R80). -/
  | unassignedOpcode
  /-- The opcode is in the table, and a must-be-zero bit is 1 (30_encoding.md R79). -/
  | mustBeZero
deriving DecidableEq, Repr

/-- The decoder, total over all `2^32` words (30_encoding.md R82). A `W` outside 1..64 is no decode failure. -/
def decode (cmd : Cmd) : Except Illegal Instr :=
  match opcodeRows.find? (fun r => r.selects cmd) with
  | some r => .ok (r.build (fieldsOf cmd))
  | none =>
    if opcodeRows.any (fun r => (cmd &&& 0xFF000000) == (r.bits &&& 0xFF000000)) then .error .mustBeZero
    else .error .unassignedOpcode

/-- Format R (30_encoding.md R72). An unused register field is 0 (R79). -/
def formatR (opc : BitVec 8) (d a b : BitVec 4) : Cmd := opc ++ d ++ a ++ b ++ 0#12

/-- Format C (30_encoding.md R73). -/
def formatC (opc : BitVec 8) (d a b : BitVec 4) (w : Nat) : Cmd := opc ++ d ++ a ++ b ++ 0#5 ++ BitVec.ofNat 7 w

/-- Format XI (30_encoding.md R74). -/
def formatXI (opc : BitVec 8) (d : BitVec 4) (imm : Int) : Cmd := opc ++ d ++ BitVec.ofInt 20 imm

/-- The command word of a command (30_encoding.md R72 to R78). -/
def encode : Instr → Cmd
  | .xli d imm => formatXI 0x01 d.num imm
  | .setraw d a => formatR 0x10 d.num a.num 0
  | .get d a => formatR 0x11 d.num a.num 0
  | .tobf d a => formatR 0x12 d.num a.num 0
  | .setchk d a => formatR 0x13 d.num a.num 0
  | .zero d => formatR 0x14 d.num 0 0
  | .copy d a => formatR 0x15 d.num a.num 0
  | .maxb d => formatR 0x16 d.num 0 0
  | .minb d => formatR 0x17 d.num 0 0
  | .decode d i o w => formatC 0x20 d.num i.num o.num w
  | .encode d i o w => formatC 0x21 d.num i.num o.num w
  | .ldv d i o => formatC 0x22 d.num i.num o.num 0
  | .stv d i o => formatC 0x23 d.num i.num o.num 0
  | .add d a b => formatR 0x30 d.num a.num b.num
  | .sub d a b => formatR 0x31 d.num a.num b.num
  | .mul d a b => formatR 0x32 d.num a.num b.num
  | .div d a b => formatR 0x33 d.num a.num b.num
  | .mod d a b => formatR 0x34 d.num a.num b.num
  | .neg d a => formatR 0x35 d.num a.num 0
  | .abs d a => formatR 0x36 d.num a.num 0
  | .succ d a => formatR 0x37 d.num a.num 0
  | .pred d a => formatR 0x38 d.num a.num 0
  | .gcd d a b => formatR 0x39 d.num a.num b.num
  | .lcm d a b => formatR 0x3A d.num a.num b.num
  | .pow d a b => formatR 0x3B d.num a.num b.num
  | .shl d a b => formatR 0x40 d.num a.num b.num
  | .shr d a b => formatR 0x41 d.num a.num b.num
  | .shrz d a b => formatR 0x42 d.num a.num b.num
  | .rotl d a b => formatR 0x43 d.num a.num b.num
  | .rotr d a b => formatR 0x44 d.num a.num b.num
  | .and d a b => formatR 0x45 d.num a.num b.num
  | .or d a b => formatR 0x46 d.num a.num b.num
  | .xor d a b => formatR 0x47 d.num a.num b.num
  | .not d a => formatR 0x48 d.num a.num 0
  | .cmp d a b => formatR 0x50 d.num a.num b.num
  | .eq d a b => formatR 0x51 d.num a.num b.num
  | .ne d a b => formatR 0x52 d.num a.num b.num
  | .lt d a b => formatR 0x53 d.num a.num b.num
  | .le d a b => formatR 0x54 d.num a.num b.num
  | .gt d a b => formatR 0x55 d.num a.num b.num
  | .ge d a b => formatR 0x56 d.num a.num b.num
  | .rand d => formatR 0x60 d.num 0 0

/-- What the decoder reads from a table row's word of `nbits` bits, the bits above them 0: for the host. -/
def decodeTableWord (nbits w : Nat) : Option Instr :=
  match decode (BitVec.ofNat 32 (w % 2 ^ nbits)) with
  | .ok i => some i
  | .error _ => none

end Sys2Proof
end

