-- ==== Sys2Proof/Config.lean ====
section
/-! DEFINITION. What is fixed for one BFIU instance (00_scope.md R5 to R7, 20_memory.md R51), and the one free value: the
entropy draws. -/

namespace Sys2Proof

/-- The byte order of a host's byte view of the store, `HOST_BYTE_ORDER` (20_memory.md R51; log 11). -/
inductive ByteOrder where
  | little
  | big
deriving DecidableEq, Repr

/-- The build-time parameters of one instance. -/
structure Config where
  /-- `N`, the width of every value register (00_scope.md R5). -/
  n : Nat
  /-- `SIGNED` (00_scope.md R6). -/
  signed : Bool
  /-- `NWORDS`, the number of 64-bit store words (00_scope.md R7). -/
  nwords : Nat
  /-- `HOST_BYTE_ORDER`, which no rule reads (20_memory.md R51). -/
  hostByteOrder : ByteOrder
deriving DecidableEq, Repr

/-- The parameter ranges: `1 <= N <= 64` (R5) and `1 <= NWORDS <= 2^32 - 1` (R7). -/
def Config.wf (c : Config) : Bool :=
  decide (1 ≤ c.n) && decide (c.n ≤ 64) && decide (1 ≤ c.nwords) && decide (c.nwords ≤ 2 ^ 32 - 1)

/-- The instance `Machine.State.reset` is a reset of: the one of 95_test_vectors.md. DESIGN CHOICE, unsafe (log 1): the spec
leaves the parameters open; every statement is about every instance. -/
def Config.reference : Config := { n := 7, signed := true, nwords := 2, hostByteOrder := .little }

/-- The environment's entropy source (44_compare_random.md R218, R219): the pattern behind draw `k`. A FREE VALUE: it has no
body, so a claim holds for every sequence of draws. DESIGN CHOICE, safe (log 5). -/
opaque Config.entropy : Nat → Word

end Sys2Proof
end

