-- ==== Sys2Proof/Machine/State.lean ====
section
/-! DEFINITION. The state of one BFIU as plain data (10_state.md R20), the host's transactions (60_exceptions.md R250), and the
state after reset (10_state.md R35). -/

namespace Sys2Proof.Machine

/-- The status codes of 60_exceptions.md R230. -/
inductive Code where
  /-- 0: the command completed. -/
  | ok
  /-- 1: a codec width outside 1..64. -/
  | invalidWidth
  /-- 2: a codec bit offset above 63. -/
  | invalidOffset
  /-- 3: a result the source deliberately raises instead of wrapping. -/
  | arithmeticOverflow
  /-- 4: `0^0`, or a negative exponent. -/
  | invalidOperation
  /-- 5: a number to construct outside `[MINV, MAXV]`. -/
  | parseOverflow
  /-- 6: a divisor 0. -/
  | divisionByZero
  /-- 7: a field that touches a word index `>= NWORDS`. -/
  | storeBounds
  /-- 8: a word that matches no row of the opcode table. -/
  | illegalCommand
deriving DecidableEq, Repr

/-- One transaction of the host port (60_exceptions.md R250). The entropy draw is no transaction of its own: see
`Config.entropy` (log 5). -/
inductive HostAction where
  /-- `issue(cmd)`: offer a command word. -/
  | issue (cmd : Cmd)
  /-- `writeX(i, v)`. -/
  | writeX (i : XReg) (v : Word)
  /-- `readX(i)`. -/
  | readX (i : XReg)
  /-- `readStat()`. -/
  | readStat
  /-- `readConfig()`. -/
  | readConfig
  /-- `readFaultCmd()`. -/
  | readFaultCmd
  /-- `readCSI()`. -/
  | readCSI
  /-- `ack()`. -/
  | ack
  /-- `readStore(w)`. -/
  | readStore (w : Nat)
  /-- `writeStore(w, v)`. -/
  | writeStore (w : Nat) (v : Word)
  /-- `reset()`. -/
  | reset
deriving DecidableEq, Repr

/-- What the host port answers to a transaction: the column "returns" of 60_exceptions.md R250 (log 13). -/
inductive Response where
  /-- Nothing is returned. -/
  | done
  /-- A 64-bit value: `X[i]`, `CONFIG`, `CSI` or a store word. -/
  | value64 (v : Word)
  /-- A 32-bit value: `STAT` or `FAULTCMD`. -/
  | value32 (v : BitVec 32)
  /-- The port refused the request and nothing happened: a word issued while halted (R234), or a store word outside the store
  (R251). -/
  | refused
deriving DecidableEq, Repr

/-- The state of one BFIU instance. -/
structure State where
  /-- The instance's parameters; constant (00_scope.md R5 to R7, 10_state.md R30). -/
  cfg : Config
  /-- `X0`..`X15` (10_state.md R21). -/
  x : Vector Word 16
  /-- `V0`..`V15`, each an N-bit pattern held zero-extended (10_state.md R23; log 4). -/
  v : Vector Word 16
  /-- `CSI` (10_state.md R27). -/
  csi : BitVec 64
  /-- `STAT` (10_state.md R29). -/
  stat : BitVec 32
  /-- `FAULTCMD` (10_state.md R31). -/
  faultCmd : BitVec 32
  /-- `MEM` (10_state.md R32) as byte cells in the canonical form of `Memory.wf` (log 3). -/
  mem : List Host.Cell
  /-- The MODEL's field: how many entropy draws have been taken (44_compare_random.md R219; log 5). -/
  draws : Nat
  /-- The MODEL's field: the host transactions still to be performed, oldest first (60_exceptions.md R250; log 6). -/
  inbox : List HostAction
  /-- The MODEL's field: the port's answer to the last transaction (60_exceptions.md R250; log 13). -/
  response : Response
deriving DecidableEq, Repr

/-- Why a step stops the machine with a fault. The spec has no such case: each of its faults is a halt that is taken, reported in
`STAT` and acknowledged by the host, so it is a next state (60_exceptions.md R232, R235). Nothing raises one: safe. -/
inductive Fault where
deriving DecidableEq, Repr

/-- Why a command has no meaning. -/
inductive Refusal where
  /-- Raised by an arm of `exec` for a command the model gives no meaning yet; no arm does. Safe: nothing is claimed of it. -/
  | notModelled (mnemonic : String)
deriving DecidableEq, Repr

/-- An instance after power-on and reset (10_state.md R35, 70_reset_and_hazards.md R260), for any parameters and any `STORE_INIT`
`mem`. No draw is taken and the host has performed nothing (logs 5, 6, 13). -/
def State.powerOn (cfg : Config) (mem : List Host.Cell) : State where
  cfg := cfg
  x := Vector.replicate 16 0
  v := Vector.replicate 16 0
  csi := 0
  stat := 0
  faultCmd := 0
  mem := mem
  draws := 0
  inbox := []
  response := .done

/-- The machine right after reset: the instance of 95_test_vectors.md with every store byte 0. The parameters (log 1) and the
store's contents (log 2) are DESIGN CHOICE, unsafe: the spec leaves them open. -/
def State.reset : State := State.powerOn Config.reference []

end Sys2Proof.Machine
end

