-- ==== Sys2Proof/Machine/Flags.lean ====
section
/-! DEFINITION. The fields of `STAT` (10_state.md R29), its three updates (60_exceptions.md R231, R232, R235), and the register
`CONFIG` (10_state.md R30). The BFIU has no condition codes (10_state.md R28). -/

namespace Sys2Proof.Machine

/-- The number of a status code (60_exceptions.md R230). -/
def Code.num : Code → BitVec 4
  | .ok => 0
  | .invalidWidth => 1
  | .invalidOffset => 2
  | .arithmeticOverflow => 3
  | .invalidOperation => 4
  | .parseOverflow => 5
  | .divisionByZero => 6
  | .storeBounds => 7
  | .illegalCommand => 8

/-- `STAT.CODE`, bits 3:0 (10_state.md R29). -/
def statCode (st : BitVec 32) : BitVec 4 := st.extractLsb' 0 4

/-- `STAT.FAULTED`, bit 4 (10_state.md R29). -/
def statFaulted (st : BitVec 32) : Bool := st.getLsbD 4

/-- `STAT.ERRSEEN`, bit 5 (10_state.md R29). -/
def statErrSeen (st : BitVec 32) : Bool := st.getLsbD 5

/-- The reserved bits 31:6 of `STAT` (10_state.md R29). -/
def statReserved (st : BitVec 32) : BitVec 26 := st.extractLsb' 6 26

/-- `STAT` from its four fields. -/
def statPack (reserved : BitVec 26) (errSeen faulted : Bool) (code : BitVec 4) : BitVec 32 :=
  reserved ++ BitVec.ofBool errSeen ++ BitVec.ofBool faulted ++ code

/-- `STAT` when a command completes: CODE 0, the rest unchanged (60_exceptions.md R231). -/
def statComplete (st : BitVec 32) : BitVec 32 :=
  statPack (statReserved st) (statErrSeen st) (statFaulted st) (Code.num .ok)

/-- `STAT` when a command faults: the code, FAULTED 1, ERRSEEN 1 (60_exceptions.md R232). -/
def statRaise (code : Code) (st : BitVec 32) : BitVec 32 := statPack (statReserved st) true true code.num

/-- `STAT` after the host's ACK: FAULTED 0, the rest unchanged (60_exceptions.md R235). -/
def statAck (st : BitVec 32) : BitVec 32 := statPack (statReserved st) (statErrSeen st) false (statCode st)

/-- `CONFIG`: WIDTH in 6:0, SIGNED in 7, 31:8 zero, NWORDS in 63:32 (10_state.md R30). -/
def configWord (c : Config) : Word :=
  BitVec.ofNat 32 c.nwords ++ 0#24 ++ BitVec.ofBool c.signed ++ BitVec.ofNat 7 c.n

end Sys2Proof.Machine
end

