-- ==== Sys2Proof/Machine/Memory.lean ====
section
/-! DEFINITION. The BitWord Store as a canonical list of byte cells (10_state.md R32; log 3). Byte `8w + k` holds bits `8k+7..8k`
of word `w`, so position `s` of the stream of 20_memory.md R50 is bit `s mod 8` of byte `s div 8`. Nothing in the unit or its
port addresses a byte (R51). -/

namespace Sys2Proof.Machine

/-- What a byte that no cell lists reads as: 0. DESIGN CHOICE, unsafe for a claim about a run from `State.reset` (log 2). -/
def Memory.unlisted : Byte := 0

/-- The byte at address `a`. -/
def Memory.readByte : List Host.Cell → Nat → Byte
  | [], _ => Memory.unlisted
  | (k, b) :: rest, a => if k = a then b else Memory.readByte rest a

/-- Set the byte at address `a`, keeping the canonical form: no cell holds what an unlisted byte reads as. -/
def Memory.writeByte : List Host.Cell → Nat → Byte → List Host.Cell
  | [], a, b => if b = Memory.unlisted then [] else [(a, b)]
  | (k, c) :: rest, a, b =>
    if a < k then (if b = Memory.unlisted then (k, c) :: rest else (a, b) :: (k, c) :: rest)
    else if a = k then (if b = Memory.unlisted then rest else (a, b) :: rest)
    else (k, c) :: Memory.writeByte rest a b

/-- The canonical form: addresses strictly rising, and no cell equal to what an unlisted address reads as. -/
def Memory.wf : List Host.Cell → Bool
  | [] => true
  | [(_, b)] => b != Memory.unlisted
  | (k, b) :: (k', b') :: rest => decide (k < k') && (b != Memory.unlisted) && Memory.wf ((k', b') :: rest)

/-- Every listed address lies below `bound`. -/
def Memory.below (m : List Host.Cell) (bound : Nat) : Bool := m.all (fun c => decide (c.1 < bound))

/-- Bit `s` of the store's bit stream: bit `s mod 64` of word `s div 64` (20_memory.md R50). -/
def Memory.streamBit (m : List Host.Cell) (s : Nat) : Bool := (Memory.readByte m (s / 8)).getLsbD (s % 8)

/-- `MemRead(w, 64)` (00_scope.md R13). -/
def Memory.readWord (m : List Host.Cell) (w : Nat) : Word :=
  Memory.readByte m (8 * w + 7) ++ Memory.readByte m (8 * w + 6) ++ Memory.readByte m (8 * w + 5)
    ++ Memory.readByte m (8 * w + 4) ++ Memory.readByte m (8 * w + 3) ++ Memory.readByte m (8 * w + 2)
    ++ Memory.readByte m (8 * w + 1) ++ Memory.readByte m (8 * w)

/-- Store the `k` low bytes of `v` at `a`, `a + 1`, ..., the least significant first. -/
def Memory.writeBytes (m : List Host.Cell) (a : Nat) (v : Word) : Nat → List Host.Cell
  | 0 => m
  | k + 1 => Memory.writeByte (Memory.writeBytes m a v k) (a + k) (v.extractLsb' (8 * k) 8)

/-- `MemWrite(w, 64, v)` (00_scope.md R13). -/
def Memory.writeWord (m : List Host.Cell) (w : Nat) (v : Word) : List Host.Cell := Memory.writeBytes m (8 * w) v 8

/-- `mask(w) = 2^w - 1`, all ones at 64 (00_scope.md R12). -/
def mask (w : Nat) : Word := BitVec.ofNat 64 (2 ^ w - 1)

/-- The field of width `w` at bit `off` of word `idx`, in the one-word and the two-word case (40_codec.md R101). -/
def Memory.readField (m : List Host.Cell) (idx off w : Nat) : Word :=
  let lo := Memory.readWord m idx
  if off + w ≤ 64 then (lo >>> off) &&& mask w
  else
    let lowBits := 64 - off
    let highBits := w - lowBits
    let hi := Memory.readWord m (idx + 1)
    ((hi &&& mask highBits) <<< lowBits) ||| (lo >>> off)

/-- Write the low `w` bits of `data` as the field at bit `off` of word `idx`, both words of a crossing field together
(40_codec.md R102, 20_memory.md R55, R56). -/
def Memory.writeField (m : List Host.Cell) (idx off w : Nat) (data : Word) : List Host.Cell :=
  let v := data &&& mask w
  let lo := Memory.readWord m idx
  if off + w ≤ 64 then Memory.writeWord m idx ((lo &&& ~~~(mask w <<< off)) ||| (v <<< off))
  else
    let lowBits := 64 - off
    let highBits := w - lowBits
    let hi := Memory.readWord m (idx + 1)
    let m' := Memory.writeWord m idx ((lo &&& mask off) ||| ((v &&& mask lowBits) <<< off))
    Memory.writeWord m' (idx + 1) ((hi &&& ~~~(mask highBits)) ||| (v >>> lowBits))

end Sys2Proof.Machine
end

