-- ==== Sys2Proof/Machine/Operands.lean ====
section
/-! DEFINITION. Patterns and values (00_scope.md R9, R12), and the value every arithmetic, shift, rotate and comparison command
computes from its operands (42_arith.md, 43_bitops.md, 44_compare_random.md). -/

namespace Sys2Proof.Machine

/-- `MINV` (00_scope.md R9). -/
def minv (c : Config) : Int := if c.signed then -2 ^ (c.n - 1) else 0

/-- `MAXV` (00_scope.md R9). -/
def maxv (c : Config) : Int := if c.signed then 2 ^ (c.n - 1) - 1 else 2 ^ c.n - 1

/-- `norm(z) = z mod 2^N`, the N-bit pattern of `z` (00_scope.md R12). -/
def normOf (c : Config) (z : Int) : Word := BitVec.ofInt 64 (z % 2 ^ c.n)

/-- `val(p)`: the value of an N-bit pattern (00_scope.md R12). -/
def val (c : Config) (p : Word) : Int :=
  if c.signed ∧ 2 ^ (c.n - 1) ≤ p.toNat then (p.toNat : Int) - 2 ^ c.n else p.toNat

/-- `uint64(x)` (00_scope.md R12). -/
def uint64 (p : Word) : Nat := p.toNat

/-- `sint64(x)` (00_scope.md R12). -/
def sint64 (p : Word) : Int := if 2 ^ 63 ≤ p.toNat then (p.toNat : Int) - 2 ^ 64 else p.toNat

/-- `enc64(z) = z mod 2^64` (00_scope.md R12). -/
def enc64 (z : Int) : Word := BitVec.ofInt 64 z

/-- The 64-bit pattern that a comparison writes for a truth value (44_compare_random.md R211 to R216). -/
def truth (b : Bool) : Word := if b then 1 else 0

/-- `a^e mod m` by squaring, for `e < 2^fuel`; equal to `a ^ e % m` (42_arith.md R161; `powMod_eq` in Laws/Operands.lean). It
keeps the model runnable at exponents where the exact power cannot be written down. -/
def powMod (m : Nat) : Nat → Nat → Nat → Nat
  | 0, _, _ => 1 % m
  | fuel + 1, a, e =>
    if e = 0 then 1 % m
    else
      let h := powMod m fuel (a * a % m) (e / 2)
      if e % 2 = 1 then a * h % m else h

/-- `norm(a ^ b)` for `0 <= b < 2^64` (42_arith.md R161). -/
def powNorm (c : Config) (a : Int) (b : Nat) : Word :=
  BitVec.ofNat 64 (powMod (2 ^ c.n) 64 (a % 2 ^ c.n).toNat b)

/-- `shl` at a count `k >= 0`: the count is reduced modulo N (43_bitops.md R180). -/
def shlUp (c : Config) (a : Int) (k : Nat) : Word := normOf c (a * 2 ^ (k % c.n))

/-- Signed `shr` at a count `k >= 0`: `floor_div(a, 2^k)`, no modulo (43_bitops.md R180). -/
def shrDown (c : Config) (a : Int) (k : Nat) : Word := normOf c (a >>> k)

/-- `shrz` at a count `k >= 0`: logical on the N-bit pattern, no modulo (43_bitops.md R180). -/
def shrzDown (c : Config) (a : Int) (k : Nat) : Word := normOf c ((normOf c a).toNat >>> k : Nat)

/-- `shrz(a, k)` (43_bitops.md R180). A negative count redirects to `shl` with the count negated exactly. -/
def shrz (c : Config) (a k : Int) : Word := if k < 0 then shlUp c a (-k).toNat else shrzDown c a k.toNat

/-- `shr(a, k)` (43_bitops.md R180): `shrz` when unsigned. -/
def shr (c : Config) (a k : Int) : Word :=
  if c.signed then (if k < 0 then shlUp c a (-k).toNat else shrDown c a k.toNat) else shrz c a k

/-- `shl(a, k)` (43_bitops.md R180): a negative count redirects to `shr`. -/
def shl (c : Config) (a k : Int) : Word := if k < 0 then shr c a (-k) else shlUp c a k.toNat

/-- Rotate the N-bit pattern `p` left by `k mod N`, Euclidean (43_bitops.md R184). -/
def rotl (c : Config) (p : Word) (k : Int) : Word :=
  let r := (k % c.n).toNat
  if r = 0 then p else ((p <<< r) ||| (p >>> (c.n - r))) &&& mask c.n

end Sys2Proof.Machine
end

