-- ==== Sys2Proof/Machine/Ops.lean ====
section
/-! DEFINITION. The named operations over the state: register access, the end of a command (`complete` and `raise`, 60_exceptions.md
R231, R232), the return from a fault (R235), reset (70_reset_and_hazards.md R260), the codec's geometry check (40_codec.md R100)
and the entropy draw (44_compare_random.md R218). -/

namespace Sys2Proof.Machine

/-- `X[i]` (00_scope.md R13). No X register is hardwired (10_state.md R21). -/
def State.getX (s : State) (r : XReg) : Word := s.x[r.num.toNat]'(by have := r.num.isLt; omega)

/-- `X[i] <- p` (00_scope.md R13). -/
def State.setX (s : State) (r : XReg) (p : Word) : State :=
  { s with x := s.x.set r.num.toNat p (by have := r.num.isLt; omega) }

/-- `pat(V[i])` (00_scope.md R12). -/
def State.getV (s : State) (r : VReg) : Word := s.v[r.num.toNat]'(by have := r.num.isLt; omega)

/-- `V[i] <- p`, `p` an N-bit pattern (00_scope.md R13). -/
def State.setV (s : State) (r : VReg) (p : Word) : State :=
  { s with v := s.v.set r.num.toNat p (by have := r.num.isLt; omega) }

/-- `vval(i) = val(pat(V[i]))` (00_scope.md R12). -/
def State.vval (s : State) (r : VReg) : Int := val s.cfg (s.getV r)

/-- The store replaced. -/
def State.setMem (s : State) (m : List Host.Cell) : State := { s with mem := m }

/-- The byte cell at address `a` (log 3). -/
def State.readByte (s : State) (a : Nat) : Byte := Memory.readByte s.mem a

/-- `complete`: CODE 0, and CSI + 1 modulo 2^64 (60_exceptions.md R231, 10_state.md R27). -/
def State.complete (s : State) : State := { s with stat := statComplete s.stat, csi := s.csi + 1 }

/-- `raise code (cmd)`, TAKING A FAULT (60_exceptions.md R232): STAT gets the code, FAULTED and ERRSEEN, FAULTCMD the command word;
CSI, every register and the store keep their values. -/
def State.raise (s : State) (code : Code) (cmd : Cmd) : State := { s with stat := statRaise code s.stat, faultCmd := cmd }

/-- `ACK`, the return from a fault (60_exceptions.md R235). With FAULTED = 0 it has no effect. -/
def State.ack (s : State) : State := if statFaulted s.stat then { s with stat := statAck s.stat } else s

/-- The host's `reset()` (70_reset_and_hazards.md R260): every register to 0, the store kept. What is outside the unit (the draws
taken, the host's own queue) is not touched (DEDUCED, log 10). -/
def State.hostReset (s : State) : State :=
  { s with x := Vector.replicate 16 0, v := Vector.replicate 16 0, csi := 0, stat := 0, faultCmd := 0 }

/-- The value of the next entropy draw: the value of an N-bit pattern, so one in `[MINV, MAXV]` (44_compare_random.md R218). -/
def State.nextDraw (s : State) : Int := val s.cfg (normOf s.cfg (Config.entropy s.draws).toNat)

/-- The draw is taken: each RAND takes exactly one (44_compare_random.md R219). -/
def State.takeDraw (s : State) : State := { s with draws := s.draws + 1 }

/-- `check_geometry(w, off, idx)` in the order of 40_codec.md R100; `none` when every check passes. -/
def checkGeometry (c : Config) (w off idx : Nat) : Option Code :=
  if w < 1 ∨ 64 < w then some .invalidWidth
  else if 63 < off then some .invalidOffset
  else if c.nwords ≤ idx then some .storeBounds
  else if 64 < off + w ∧ c.nwords ≤ idx + 1 then some .storeBounds
  else none

/-- End a command that writes `p` to a native register. -/
def State.completeX (s : State) (d : XReg) (p : Word) : State := (s.setX d p).complete

/-- End a command that writes `p` to a value register. -/
def State.completeV (s : State) (d : VReg) (p : Word) : State := (s.setV d p).complete

/-- End a command whose result is a pattern for a value register, or a fault. A fault writes no register (60_exceptions.md R232). -/
def State.finishV (s : State) (d : VReg) (cmd : Cmd) : Except Code Word → State
  | .ok p => s.completeV d p
  | .error code => s.raise code cmd

/-- The shape of a codec command: the geometry check first, then `go` on the word index and bit offset (40_codec.md R100). -/
def State.withGeometry (s : State) (cmd : Cmd) (w : Nat) (idx off : XReg) (go : Nat → Nat → State) : State :=
  match checkGeometry s.cfg w (uint64 (s.getX off)) (uint64 (s.getX idx)) with
  | some code => s.raise code cmd
  | none => go (uint64 (s.getX idx)) (uint64 (s.getX off))

end Sys2Proof.Machine
end

