-- ==== Sys2Proof/Machine/ArithCommands.lean ====
section
/-! DEFINITION. The integer arithmetic commands (42_arith.md R150 to R162): exact integer results through `norm`, and the cases
that fault. -/

namespace Sys2Proof.Machine

/-- ADD: `norm(a + b)`, never fails (42_arith.md R150). -/
def execAdd (d a b : VReg) (s : State) : Host.Outcome State Fault Refusal :=
  .next (s.completeV d (normOf s.cfg (s.vval a + s.vval b)))

/-- SUB: `norm(a - b)`, never fails (42_arith.md R151). -/
def execSub (d a b : VReg) (s : State) : Host.Outcome State Fault Refusal :=
  .next (s.completeV d (normOf s.cfg (s.vval a - s.vval b)))

/-- MUL: `norm(a * b)` of the exact product, never fails (42_arith.md R152). -/
def execMul (d a b : VReg) (s : State) : Host.Outcome State Fault Refusal :=
  .next (s.completeV d (normOf s.cfg (s.vval a * s.vval b)))

/-- The checks DIV and MOD share, and then the exact result `z` (42_arith.md R153, R154; 60_exceptions.md R233). -/
def divisionResult (c : Config) (a b z : Int) : Except Code Word :=
  if b = 0 then .error .divisionByZero
  else if c.signed ∧ a = minv c ∧ b = -1 then .error .arithmeticOverflow
  else .ok (normOf c z)

/-- DIV: `trunc_div(a, b)`, rounded toward zero (42_arith.md R153). -/
def execDiv (d a b : VReg) (s : State) : Host.Outcome State Fault Refusal :=
  .next (s.finishV d (encode (.div d a b))
    (divisionResult s.cfg (s.vval a) (s.vval b) ((s.vval a).tdiv (s.vval b))))

/-- MOD: `trunc_rem(a, b)`, with the sign of `a` (42_arith.md R154). `(MINV, -1)` fails too (90_conflicts.md C3). -/
def execMod (d a b : VReg) (s : State) : Host.Outcome State Fault Refusal :=
  .next (s.finishV d (encode (.mod d a b))
    (divisionResult s.cfg (s.vval a) (s.vval b) ((s.vval a).tmod (s.vval b))))

/-- The check NEG and ABS share: signed `MINV` fails (42_arith.md R155, R156). -/
def signResult (c : Config) (a z : Int) : Except Code Word :=
  if c.signed ∧ a = minv c then .error .arithmeticOverflow else .ok (normOf c z)

/-- NEG: `norm(-a)` (42_arith.md R155). -/
def execNeg (d a : VReg) (s : State) : Host.Outcome State Fault Refusal :=
  .next (s.finishV d (encode (.neg d a)) (signResult s.cfg (s.vval a) (-s.vval a)))

/-- ABS: `norm(|a|)` (42_arith.md R156). -/
def execAbs (d a : VReg) (s : State) : Host.Outcome State Fault Refusal :=
  .next (s.finishV d (encode (.abs d a)) (signResult s.cfg (s.vval a) (s.vval a).natAbs))

/-- SUCC: `norm(a + 1)`, never fails (42_arith.md R157). -/
def execSucc (d a : VReg) (s : State) : Host.Outcome State Fault Refusal :=
  .next (s.completeV d (normOf s.cfg (s.vval a + 1)))

/-- PRED: `norm(a - 1)`, never fails (42_arith.md R158). -/
def execPred (d a : VReg) (s : State) : Host.Outcome State Fault Refusal :=
  .next (s.completeV d (normOf s.cfg (s.vval a - 1)))

/-- The check GCD and LCM share: an exact result above `MAXV` fails (42_arith.md R159, R160). -/
def representable (c : Config) (z : Int) : Except Code Word :=
  if maxv c < z then .error .arithmeticOverflow else .ok (normOf c z)

/-- GCD: `gcd(|a|, |b|)`, with `gcd(0, 0) = 0` (42_arith.md R159). -/
def execGcd (d a b : VReg) (s : State) : Host.Outcome State Fault Refusal :=
  .next (s.finishV d (encode (.gcd d a b)) (representable s.cfg (Int.gcd (s.vval a) (s.vval b))))

/-- The exact lcm of 42_arith.md R160. -/
def exactLcm (a b : Int) : Nat := if a = 0 ∨ b = 0 then 0 else (a * b).natAbs / Int.gcd a b

/-- LCM: `|a * b| / gcd(|a|, |b|)`, and 0 where an operand is 0 (42_arith.md R160). -/
def execLcm (d a b : VReg) (s : State) : Host.Outcome State Fault Refusal :=
  .next (s.finishV d (encode (.lcm d a b)) (representable s.cfg (exactLcm (s.vval a) (s.vval b))))

/-- POW's result: InvalidOperation for `0^0`, then for a negative exponent, else `norm(a^b)` (42_arith.md R161). -/
def powResult (c : Config) (a b : Int) : Except Code Word :=
  if a = 0 ∧ b = 0 then .error .invalidOperation
  else if b < 0 then .error .invalidOperation
  else .ok (powNorm c a b.toNat)

/-- POW (42_arith.md R161). -/
def execPow (d a b : VReg) (s : State) : Host.Outcome State Fault Refusal :=
  .next (s.finishV d (encode (.pow d a b)) (powResult s.cfg (s.vval a) (s.vval b)))

end Sys2Proof.Machine
end

