-- ==== Sys2Proof/Machine/BitCommands.lean ====
section
/-! DEFINITION. The shift, rotate and bitwise commands (43_bitops.md R180 to R189). None of them fails. -/

namespace Sys2Proof.Machine

/-- SHL: `shl(a, sint64(X[B]))` (43_bitops.md R181). -/
def execShl (d a : VReg) (b : XReg) (s : State) : Host.Outcome State Fault Refusal :=
  .next (s.completeV d (shl s.cfg (s.vval a) (sint64 (s.getX b))))

/-- SHR: `shr(a, sint64(X[B]))` (43_bitops.md R182). -/
def execShr (d a : VReg) (b : XReg) (s : State) : Host.Outcome State Fault Refusal :=
  .next (s.completeV d (shr s.cfg (s.vval a) (sint64 (s.getX b))))

/-- SHRZ: `shrz(a, sint64(X[B]))` (43_bitops.md R183). -/
def execShrz (d a : VReg) (b : XReg) (s : State) : Host.Outcome State Fault Refusal :=
  .next (s.completeV d (shrz s.cfg (s.vval a) (sint64 (s.getX b))))

/-- ROTL: rotate the pattern left by `sint64(X[B]) mod N` (43_bitops.md R184). -/
def execRotl (d a : VReg) (b : XReg) (s : State) : Host.Outcome State Fault Refusal :=
  .next (s.completeV d (rotl s.cfg (s.getV a) (sint64 (s.getX b))))

/-- ROTR: as ROTL with the count negated (43_bitops.md R185). -/
def execRotr (d a : VReg) (b : XReg) (s : State) : Host.Outcome State Fault Refusal :=
  .next (s.completeV d (rotl s.cfg (s.getV a) (-sint64 (s.getX b))))

/-- AND of the patterns (43_bitops.md R186). -/
def execAnd (d a b : VReg) (s : State) : Host.Outcome State Fault Refusal :=
  .next (s.completeV d (s.getV a &&& s.getV b))

/-- OR of the patterns (43_bitops.md R187). -/
def execOr (d a b : VReg) (s : State) : Host.Outcome State Fault Refusal :=
  .next (s.completeV d (s.getV a ||| s.getV b))

/-- XOR of the patterns (43_bitops.md R188). -/
def execXor (d a b : VReg) (s : State) : Host.Outcome State Fault Refusal :=
  .next (s.completeV d (s.getV a ^^^ s.getV b))

/-- NOT: the pattern XOR `mask(N)` (43_bitops.md R189). -/
def execNot (d a : VReg) (s : State) : Host.Outcome State Fault Refusal :=
  .next (s.completeV d (s.getV a ^^^ mask s.cfg.n))

end Sys2Proof.Machine
end

