-- ==== Sys2Proof/Machine/CodecCommands.lean ====
section
/-! DEFINITION. The bit-field codec commands (40_codec.md R100 to R106). The raw codec ignores SIGNED (R106). -/

namespace Sys2Proof.Machine

/-- DECODE: `X[D]` becomes the field, zero-extended (40_codec.md R101). -/
def execDecode (d idx off : XReg) (w : Nat) (s : State) : Host.Outcome State Fault Refusal :=
  .next (s.withGeometry (encode (.decode d idx off w)) w idx off
    fun i o => s.completeX d (Memory.readField s.mem i o w))

/-- ENCODE: the field becomes the low `w` bits of `X[D]`; no register is written (40_codec.md R102). -/
def execEncode (src idx off : XReg) (w : Nat) (s : State) : Host.Outcome State Fault Refusal :=
  .next (s.withGeometry (encode (.encode src idx off w)) w idx off
    fun i o => (s.setMem (Memory.writeField s.mem i o w (s.getX src))).complete)

/-- LDV: `V[D]` becomes the N-bit field (40_codec.md R103). -/
def execLdv (d : VReg) (idx off : XReg) (s : State) : Host.Outcome State Fault Refusal :=
  .next (s.withGeometry (encode (.ldv d idx off)) s.cfg.n idx off
    fun i o => s.completeV d (normOf s.cfg (Memory.readField s.mem i o s.cfg.n).toNat))

/-- STV: the N-bit field becomes `pat(V[D])` (40_codec.md R104). -/
def execStv (src : VReg) (idx off : XReg) (s : State) : Host.Outcome State Fault Refusal :=
  .next (s.withGeometry (encode (.stv src idx off)) s.cfg.n idx off
    fun i o => (s.setMem (Memory.writeField s.mem i o s.cfg.n (s.getV src))).complete)

end Sys2Proof.Machine
end

