-- ==== Sys2Proof/Machine/CompareCommands.lean ====
section
/-! DEFINITION. The comparison commands and RAND (44_compare_random.md R210 to R219). None of them fails. -/

namespace Sys2Proof.Machine

/-- CMP: -1, 0 or 1 as a 64-bit pattern (44_compare_random.md R210). -/
def execCmp (d : XReg) (a b : VReg) (s : State) : Host.Outcome State Fault Refusal :=
  .next (s.completeX d (enc64 (if s.vval a < s.vval b then -1 else if s.vval a = s.vval b then 0 else 1)))

/-- EQ (44_compare_random.md R211). -/
def execEq (d : XReg) (a b : VReg) (s : State) : Host.Outcome State Fault Refusal :=
  .next (s.completeX d (truth (decide (s.vval a = s.vval b))))

/-- NE (44_compare_random.md R212). -/
def execNe (d : XReg) (a b : VReg) (s : State) : Host.Outcome State Fault Refusal :=
  .next (s.completeX d (truth (decide (s.vval a ≠ s.vval b))))

/-- LT (44_compare_random.md R213). -/
def execLt (d : XReg) (a b : VReg) (s : State) : Host.Outcome State Fault Refusal :=
  .next (s.completeX d (truth (decide (s.vval a < s.vval b))))

/-- LE (44_compare_random.md R214). -/
def execLe (d : XReg) (a b : VReg) (s : State) : Host.Outcome State Fault Refusal :=
  .next (s.completeX d (truth (decide (s.vval a ≤ s.vval b))))

/-- GT (44_compare_random.md R215). -/
def execGt (d : XReg) (a b : VReg) (s : State) : Host.Outcome State Fault Refusal :=
  .next (s.completeX d (truth (decide (s.vval a > s.vval b))))

/-- GE (44_compare_random.md R216). -/
def execGe (d : XReg) (a b : VReg) (s : State) : Host.Outcome State Fault Refusal :=
  .next (s.completeX d (truth (decide (s.vval a ≥ s.vval b))))

/-- RAND with the draw `r`: `V[D] <- norm(r)`, and the draw is taken (44_compare_random.md R218, R219). -/
def State.randWith (s : State) (d : VReg) (r : Int) : State := s.takeDraw.completeV d (normOf s.cfg r)

/-- RAND: the draw is a free value in `[MINV, MAXV]` (44_compare_random.md R218; log 5). -/
def execRand (d : VReg) (s : State) : Host.Outcome State Fault Refusal := .next (s.randWith d s.nextDraw)

end Sys2Proof.Machine
end

