-- ==== Sys2Proof/Machine/ValueCommands.lean ====
section
/-! DEFINITION. XLI and the normalizer, construction and bounds commands (41_value.md R121 to R131). -/

namespace Sys2Proof.Machine

/-- XLI: `X[D] <- sext_64(IMM20)` (41_value.md R121). -/
def execXli (d : XReg) (imm : Int) (s : State) : Host.Outcome State Fault Refusal :=
  .next (s.completeX d (enc64 imm))

/-- SETRAW: `V[D] <- norm(uint64(X[A]))` (41_value.md R122). -/
def execSetraw (d : VReg) (a : XReg) (s : State) : Host.Outcome State Fault Refusal :=
  .next (s.completeV d (normOf s.cfg (uint64 (s.getX a))))

/-- GET: `X[D] <- enc64(vval(A))` (41_value.md R123). -/
def execGet (d : XReg) (a : VReg) (s : State) : Host.Outcome State Fault Refusal :=
  .next (s.completeX d (enc64 (s.vval a)))

/-- TOBF: `X[D] <- zext_64(pat(V[A]))` (41_value.md R124). -/
def execTobf (d : XReg) (a : VReg) (s : State) : Host.Outcome State Fault Refusal :=
  .next (s.completeX d (s.getV a))

/-- The number SETCHK reads from a native register: `sint64` when SIGNED, else `uint64` (41_value.md R127). -/
def constructed (c : Config) (p : Word) : Int := if c.signed then sint64 p else uint64 p

/-- SETCHK's result: ParseOverflow outside `[MINV, MAXV]` (41_value.md R127). -/
def setchkResult (c : Config) (z : Int) : Except Code Word :=
  if z < minv c ∨ maxv c < z then .error .parseOverflow else .ok (normOf c z)

/-- SETCHK (41_value.md R127). -/
def execSetchk (d : VReg) (a : XReg) (s : State) : Host.Outcome State Fault Refusal :=
  .next (s.finishV d (encode (.setchk d a)) (setchkResult s.cfg (constructed s.cfg (s.getX a))))

/-- ZERO: `V[D] <- 0` (41_value.md R128). -/
def execZero (d : VReg) (s : State) : Host.Outcome State Fault Refusal := .next (s.completeV d 0)

/-- COPY: `V[D] <- V[A]` (41_value.md R129). -/
def execCopy (d a : VReg) (s : State) : Host.Outcome State Fault Refusal := .next (s.completeV d (s.getV a))

/-- MAXB: `V[D] <- norm(MAXV)` (41_value.md R130). -/
def execMaxb (d : VReg) (s : State) : Host.Outcome State Fault Refusal :=
  .next (s.completeV d (normOf s.cfg (maxv s.cfg)))

/-- MINB: `V[D] <- norm(MINV)` (41_value.md R131). -/
def execMinb (d : VReg) (s : State) : Host.Outcome State Fault Refusal :=
  .next (s.completeV d (normOf s.cfg (minv s.cfg)))

end Sys2Proof.Machine
end

