-- ==== Sys2Proof/Machine/Dispatch.lean ====
section
/-! DEFINITION. The meaning of every command: one arm per constructor of Instr (30_encoding.md R78). -/

namespace Sys2Proof.Machine

def exec (i : Instr) (s : State) : Host.Outcome State Fault Refusal :=
  match i with
  | .xli d imm => Sys2Proof.Machine.execXli d imm s
  | .setraw d a => Sys2Proof.Machine.execSetraw d a s
  | .get d a => Sys2Proof.Machine.execGet d a s
  | .tobf d a => Sys2Proof.Machine.execTobf d a s
  | .setchk d a => Sys2Proof.Machine.execSetchk d a s
  | .zero d => Sys2Proof.Machine.execZero d s
  | .copy d a => Sys2Proof.Machine.execCopy d a s
  | .maxb d => Sys2Proof.Machine.execMaxb d s
  | .minb d => Sys2Proof.Machine.execMinb d s
  | .decode d idx off w => Sys2Proof.Machine.execDecode d idx off w s
  | .encode src idx off w => Sys2Proof.Machine.execEncode src idx off w s
  | .ldv d idx off => Sys2Proof.Machine.execLdv d idx off s
  | .stv src idx off => Sys2Proof.Machine.execStv src idx off s
  | .add d a b => Sys2Proof.Machine.execAdd d a b s
  | .sub d a b => Sys2Proof.Machine.execSub d a b s
  | .mul d a b => Sys2Proof.Machine.execMul d a b s
  | .div d a b => Sys2Proof.Machine.execDiv d a b s
  | .mod d a b => Sys2Proof.Machine.execMod d a b s
  | .neg d a => Sys2Proof.Machine.execNeg d a s
  | .abs d a => Sys2Proof.Machine.execAbs d a s
  | .succ d a => Sys2Proof.Machine.execSucc d a s
  | .pred d a => Sys2Proof.Machine.execPred d a s
  | .gcd d a b => Sys2Proof.Machine.execGcd d a b s
  | .lcm d a b => Sys2Proof.Machine.execLcm d a b s
  | .pow d a b => Sys2Proof.Machine.execPow d a b s
  | .shl d a b => Sys2Proof.Machine.execShl d a b s
  | .shr d a b => Sys2Proof.Machine.execShr d a b s
  | .shrz d a b => Sys2Proof.Machine.execShrz d a b s
  | .rotl d a b => Sys2Proof.Machine.execRotl d a b s
  | .rotr d a b => Sys2Proof.Machine.execRotr d a b s
  | .and d a b => Sys2Proof.Machine.execAnd d a b s
  | .or d a b => Sys2Proof.Machine.execOr d a b s
  | .xor d a b => Sys2Proof.Machine.execXor d a b s
  | .not d a => Sys2Proof.Machine.execNot d a s
  | .cmp d a b => Sys2Proof.Machine.execCmp d a b s
  | .eq d a b => Sys2Proof.Machine.execEq d a b s
  | .ne d a b => Sys2Proof.Machine.execNe d a b s
  | .lt d a b => Sys2Proof.Machine.execLt d a b s
  | .le d a b => Sys2Proof.Machine.execLe d a b s
  | .gt d a b => Sys2Proof.Machine.execGt d a b s
  | .ge d a b => Sys2Proof.Machine.execGe d a b s
  | .rand d => Sys2Proof.Machine.execRand d s

end Sys2Proof.Machine
end

