-- ==== Sys2Proof/Machine/HostPort.lean ====
section
/-! DEFINITION. The host port (60_exceptions.md R250, R251): each transaction is one atomic step between commands. -/

namespace Sys2Proof.Machine

/-- The port answers `r`. -/
def State.respond (s : State) (r : Response) : State := { s with response := r }

/-- `ERR`, the level output (60_exceptions.md R238). -/
def State.errOutput (s : State) : Bool := statFaulted s.stat

/-- The byte that a host's byte view of the store shows at byte `k` of word `w` (20_memory.md R51). No rule reads it (log 11). -/
def State.hostByte (s : State) (w k : Nat) : Byte :=
  match s.cfg.hostByteOrder with
  | .little => (Memory.readWord s.mem w).extractLsb' (8 * (k % 8)) 8
  | .big => (Memory.readWord s.mem w).extractLsb' (8 * (7 - k % 8)) 8

/-- `issue(cmd)` (60_exceptions.md R250). While halted the word is not accepted and nothing changes (R234; log 7); a word that is no
command raises IllegalCommand (R230; 30_encoding.md R79, R80); any other is executed. -/
def issue (cmd : Cmd) (s : State) : Host.Outcome State Fault Refusal :=
  if statFaulted s.stat then .next (s.respond .refused)
  else
    match decode cmd with
    | .error _ => .next (s.raise .illegalCommand cmd)
    | .ok i => exec i s

/-- `writeX(i, v)` (60_exceptions.md R250). -/
def hostWriteX (i : XReg) (v : Word) (s : State) : State := s.setX i v

/-- `readStore(w)`: the port refuses a word outside the store (60_exceptions.md R250, R251; log 8). -/
def hostReadStore (w : Nat) (s : State) : State :=
  if w < s.cfg.nwords then s.respond (.value64 (Memory.readWord s.mem w)) else s.respond .refused

/-- `writeStore(w, v)`: the port refuses a word outside the store (60_exceptions.md R250, R251; log 8). -/
def hostWriteStore (w : Nat) (v : Word) (s : State) : State :=
  if w < s.cfg.nwords then s.setMem (Memory.writeWord s.mem w v) else s.respond .refused

/-- One transaction of the host port (60_exceptions.md R250). -/
def perform (act : HostAction) (s : State) : Host.Outcome State Fault Refusal :=
  match act with
  | .issue cmd => issue cmd s
  | .writeX i v => .next (hostWriteX i v s)
  | .readX i => .next (s.respond (.value64 (s.getX i)))
  | .readStat => .next (s.respond (.value32 s.stat))
  | .readConfig => .next (s.respond (.value64 (configWord s.cfg)))
  | .readFaultCmd => .next (s.respond (.value32 s.faultCmd))
  | .readCSI => .next (s.respond (.value64 s.csi))
  | .ack => .next s.ack
  | .readStore w => .next (hostReadStore w s)
  | .writeStore w v => .next (hostWriteStore w v s)
  | .reset => .next s.hostReset

/-- The host's oldest transaction leaves the queue and the last answer is cleared, before it is performed (log 6, log 13). -/
def State.take (s : State) (rest : List HostAction) : State := { s with inbox := rest, response := .done }

/-- One step: the host's oldest transaction is performed; with none, the unit is idle and all state survives (60_exceptions.md R244;
log 6). -/
def hostStep (s : State) : Host.Outcome State Fault Refusal :=
  match s.inbox with
  | [] => .next s
  | act :: rest => perform act (s.take rest)

/-- How a run of a command stream ends (45_control.md R222). -/
inductive StreamEnd where
  | completed
  | faulted
  | refused
deriving DecidableEq, Repr

/-- Issue the words of a stream in order, up to its end (45_control.md R222). DESIGN CHOICE, unsafe (log 18): a stream of no words is
`completed` with the state unchanged, from every state, also a halted one or one whose CODE is not 0; R222 and 60_exceptions.md R252 say how
a stream ends only by its last command and its issued words. -/
def runStream : List Cmd → State → StreamEnd × State
  | [], s => (.completed, s)
  | cmd :: rest, s =>
    if statFaulted s.stat then (.refused, s)
    else
      match issue cmd s with
      | .next t => if statFaulted t.stat then (.faulted, t) else runStream rest t
      | .fault _ => (.refused, s)
      | .refused _ => (.refused, s)

/-- The host puts an instruction word in front of its queue. A halted unit accepts no word before an ACK (60_exceptions.md R234, R235),
so the ACK comes with it; on a running unit it has no effect. -/
def State.placeWord (s : State) (nbits w : Nat) : State :=
  { s.ack with inbox := .issue (BitVec.ofNat 32 (w % 2 ^ nbits)) :: s.inbox }

end Sys2Proof.Machine
end

