-- ==== Sys2Proof/Machine/Asm.lean ====
section
/-! DEFINITION. The assembler syntax and the pseudo-instructions (30_encoding.md R83, R84). It stands beside the machine: nothing in
the step uses it. What R83 leaves open about the text is log 16. -/

namespace Sys2Proof.Machine

/-- An operand as it is written (30_encoding.md R83). -/
inductive Operand where
  | x (r : XReg)
  | v (r : VReg)
  | imm (z : Int)
deriving DecidableEq, Repr

/-- Why the assembler rejects a line (30_encoding.md R83). -/
inductive AsmError where
  /-- No command or pseudo-instruction has this name. -/
  | unknownMnemonic
  /-- An operand is neither a register nor an immediate. -/
  | badOperand
  /-- The operands are not those of the command, a register of the wrong file among them. -/
  | wrongOperands
  /-- An immediate is out of range. -/
  | immediateRange
deriving DecidableEq, Repr

/-- A blank of the text. -/
def isBlank (ch : Char) : Bool := ch == ' ' || ch == '\t'

/-- The text without the blanks at its two ends. -/
def trimBlanks (cs : List Char) : List Char := ((cs.dropWhile isBlank).reverse.dropWhile isBlank).reverse

/-- The text between commas. -/
def splitCommas : List Char → List (List Char)
  | [] => [[]]
  | c :: rest =>
    if c == ',' then [] :: splitCommas rest
    else
      match splitCommas rest with
      | [] => [[c]]
      | first :: more => (c :: first) :: more

/-- A digit of the given base, 10 or 16. -/
def digitOf (base : Nat) (ch : Char) : Option Nat :=
  let n :=
    if '0' ≤ ch ∧ ch ≤ '9' then ch.toNat - '0'.toNat
    else if 'a' ≤ ch ∧ ch ≤ 'f' then ch.toNat - 'a'.toNat + 10
    else if 'A' ≤ ch ∧ ch ≤ 'F' then ch.toNat - 'A'.toNat + 10
    else base
  if n < base then some n else none

/-- The number that digits write, after the digits already read. -/
def digitsFrom (base acc : Nat) : List Char → Option Nat
  | [] => some acc
  | c :: rest => (digitOf base c).bind fun n => digitsFrom base (acc * base + n) rest

/-- The number that at least one digit writes. -/
def numberOf (base : Nat) : List Char → Option Nat
  | [] => none
  | cs => digitsFrom base 0 cs

/-- A register number 0..15, written without leading zeros. -/
def registerNumber (cs : List Char) : Option (BitVec 4) :=
  (numberOf 10 cs).bind fun n =>
    if n < 16 ∧ (cs.length = 1 ∨ cs.head? ≠ some '0') then some (BitVec.ofNat 4 n) else none

/-- One operand: `x0`..`x15`, `v0`..`v15`, or `#` and a number (30_encoding.md R83). -/
def parseOperand : List Char → Option Operand
  | 'x' :: cs => (registerNumber cs).map fun n => .x ⟨n⟩
  | 'v' :: cs => (registerNumber cs).map fun n => .v ⟨n⟩
  | '#' :: '0' :: 'x' :: cs => (numberOf 16 cs).map fun n => .imm n
  | '#' :: '-' :: cs => (numberOf 10 cs).map fun n => .imm (-n)
  | '#' :: cs => (numberOf 10 cs).map fun n => .imm n
  | _ => none

/-- Operands `vd`. -/
def shapeV (f : VReg → Instr) : List Operand → Option (List Instr)
  | [.v d] => some [f d]
  | _ => none

/-- Operands `vd, va`. -/
def shapeVV (f : VReg → VReg → Instr) : List Operand → Option (List Instr)
  | [.v d, .v a] => some [f d a]
  | _ => none

/-- Operands `vd, xa`. -/
def shapeVX (f : VReg → XReg → Instr) : List Operand → Option (List Instr)
  | [.v d, .x a] => some [f d a]
  | _ => none

/-- Operands `xd, va`. -/
def shapeXV (f : XReg → VReg → Instr) : List Operand → Option (List Instr)
  | [.x d, .v a] => some [f d a]
  | _ => none

/-- Operands `vd, va, vb`. -/
def shapeVVV (f : VReg → VReg → VReg → Instr) : List Operand → Option (List Instr)
  | [.v d, .v a, .v b] => some [f d a b]
  | _ => none

/-- Operands `vd, va, xb`. -/
def shapeVVX (f : VReg → VReg → XReg → Instr) : List Operand → Option (List Instr)
  | [.v d, .v a, .x b] => some [f d a b]
  | _ => none

/-- Operands `xd, va, vb`. -/
def shapeXVV (f : XReg → VReg → VReg → Instr) : List Operand → Option (List Instr)
  | [.x d, .v a, .v b] => some [f d a b]
  | _ => none

/-- Operands `v, xi, xo`. -/
def shapeVXX (f : VReg → XReg → XReg → Instr) : List Operand → Option (List Instr)
  | [.v d, .x i, .x o] => some [f d i o]
  | _ => none

/-- Operands `x, xi, xo, #w`. A negative width is no width. -/
def shapeField (f : XReg → XReg → XReg → Nat → Instr) : List Operand → Option (List Instr)
  | [.x d, .x i, .x o, .imm w] => some [f d i o (if w < 0 then 128 else w.toNat)]
  | _ => none

/-- Operands `xd, #imm`. -/
def shapeXI (f : XReg → Int → Instr) : List Operand → Option (List Instr)
  | [.x d, .imm z] => some [f d z]
  | _ => none

/-- `LIV vd, xt, #imm`: XLI, then SETRAW (30_encoding.md R84). -/
def shapeLiv : List Operand → Option (List Instr)
  | [.v d, .x t, .imm z] => some [.xli t z, .setraw d t]
  | _ => none

/-- The operand order of every command (30_encoding.md R83). -/
def commandTable : List (String × (List Operand → Option (List Instr))) :=
  [("XLI", shapeXI .xli), ("SETRAW", shapeVX .setraw), ("GET", shapeXV .get), ("TOBF", shapeXV .tobf),
   ("SETCHK", shapeVX .setchk), ("ZERO", shapeV .zero), ("COPY", shapeVV .copy), ("MAXB", shapeV .maxb), ("MINB", shapeV .minb),
   ("DECODE", shapeField .decode), ("ENCODE", shapeField .encode), ("LDV", shapeVXX .ldv), ("STV", shapeVXX .stv)]
  ++ [("ADD", shapeVVV .add), ("SUB", shapeVVV .sub), ("MUL", shapeVVV .mul), ("DIV", shapeVVV .div), ("MOD", shapeVVV .mod),
   ("NEG", shapeVV .neg), ("ABS", shapeVV .abs), ("SUCC", shapeVV .succ), ("PRED", shapeVV .pred), ("GCD", shapeVVV .gcd),
   ("LCM", shapeVVV .lcm), ("POW", shapeVVV .pow)]
  ++ [("SHL", shapeVVX .shl), ("SHR", shapeVVX .shr), ("SHRZ", shapeVVX .shrz), ("ROTL", shapeVVX .rotl), ("ROTR", shapeVVX .rotr),
   ("AND", shapeVVV .and), ("OR", shapeVVV .or), ("XOR", shapeVVV .xor), ("NOT", shapeVV .not)]
  ++ [("CMP", shapeXVV .cmp), ("EQ", shapeXVV .eq), ("NE", shapeXVV .ne), ("LT", shapeXVV .lt), ("LE", shapeXVV .le),
   ("GT", shapeXVV .gt), ("GE", shapeXVV .ge), ("RAND", shapeV .rand)]

/-- The pseudo-instructions and their expansions (30_encoding.md R84). -/
def pseudoTable : List (String × (List Operand → Option (List Instr))) :=
  [("FROMBF", shapeVX .setraw), ("CONSTRUCT", shapeV .zero), ("ALLOC", shapeV .zero), ("DUP", shapeVV .copy),
   ("SET", shapeVV .copy), ("LIV", shapeLiv)]

/-- The operands of a line, which may have none. -/
def parseOperands (cs : List Char) : Option (List Operand) :=
  match trimBlanks cs with
  | [] => some []
  | text => (splitCommas text).mapM fun piece => parseOperand (trimBlanks piece)

/-- Assemble one line: a command, a pseudo-instruction, or nothing; `;` starts a comment (30_encoding.md R83, R84). -/
def assembleLine (line : List Char) : Except AsmError (List Instr) :=
  let text := trimBlanks (line.takeWhile (· != ';'))
  if text.isEmpty then .ok []
  else
    let name := String.ofList ((text.takeWhile fun c => !isBlank c).map Char.toUpper)
    match (commandTable ++ pseudoTable).find? fun row => row.1 == name with
    | none => .error .unknownMnemonic
    | some row =>
      match parseOperands (text.dropWhile fun c => !isBlank c) with
      | none => .error .badOperand
      | some ops =>
        match row.2 ops with
        | none => .error .wrongOperands
        | some is => if is.all Instr.wellFormed then .ok is else .error .immediateRange

end Sys2Proof.Machine
end

