-- ==== Sys2Proof/Safety.lean ====
section
/-! DEFINITION. The terms claims use: the legal states, what a command that completes or faults leaves (60_exceptions.md R231, R232),
and what a safe run is (R252). -/

namespace Sys2Proof.Machine

/-- Every value register holds an N-bit pattern (10_state.md R23, R24). -/
def canonicalV (s : State) : Bool := s.v.all fun p => decide (p.toNat < 2 ^ s.cfg.n)

/-- `STAT` as it can read: reserved bits 0, CODE in 0..8, halted only after a fault code, and no fault code without ERRSEEN
(10_state.md R29, 60_exceptions.md R230 to R235). -/
def statLegal (st : BitVec 32) : Bool :=
  statReserved st == 0 && decide (statCode st ≤ 8) && (!statFaulted st || statCode st != 0)
    && (statCode st == 0 || statErrSeen st)

/-- The legal states: a legal instance, canonical value registers, the store canonical and inside its NWORDS words, a legal STAT, and
a FAULTCMD that only a fault has written. -/
abbrev LegalState (s : State) : Prop :=
  s.cfg.wf = true ∧ canonicalV s = true ∧ Memory.wf s.mem = true ∧ Memory.below s.mem (8 * s.cfg.nwords) = true
    ∧ statLegal s.stat = true ∧ (statErrSeen s.stat = false → s.faultCmd = 0)

/-- Every native register as before. -/
def SameX (s t : State) : Prop := ∀ r, t.getX r = s.getX r

/-- Every native register but `d` as before. -/
def SameXBut (d : XReg) (s t : State) : Prop := ∀ r, r ≠ d → t.getX r = s.getX r

/-- Every value register as before. -/
def SameV (s t : State) : Prop := ∀ r, t.getV r = s.getV r

/-- Every value register but `d` as before. -/
def SameVBut (d : VReg) (s t : State) : Prop := ∀ r, r ≠ d → t.getV r = s.getV r

/-- Every byte of the store as before. -/
def SameStore (s t : State) : Prop := ∀ a, t.readByte a = s.readByte a

/-- What no command changes: the instance, the host's queue and the port's answer. -/
def SameOutside (s t : State) : Prop := t.cfg = s.cfg ∧ t.inbox = s.inbox ∧ t.response = s.response

/-- `STAT`, `CSI` and `FAULTCMD` after a command that completes (60_exceptions.md R231). -/
def Succeeds (s t : State) : Prop :=
  statCode t.stat = Code.num .ok ∧ statFaulted t.stat = statFaulted s.stat ∧ statErrSeen t.stat = statErrSeen s.stat
    ∧ statReserved t.stat = statReserved s.stat ∧ t.csi = s.csi + 1 ∧ t.faultCmd = s.faultCmd

/-- The command completes and writes the native register `d` alone. -/
def CompletesX (d : XReg) (s t : State) : Prop :=
  Succeeds s t ∧ SameXBut d s t ∧ SameV s t ∧ SameStore s t ∧ t.draws = s.draws ∧ SameOutside s t

/-- The command completes and writes the value register `d` alone. -/
def CompletesV (d : VReg) (s t : State) : Prop :=
  Succeeds s t ∧ SameX s t ∧ SameVBut d s t ∧ SameStore s t ∧ t.draws = s.draws ∧ SameOutside s t

/-- Word `k` is one of the words that the field of width `w` at bit `off` of word `idx` touches (20_memory.md R54). -/
def TouchesWord (idx off w k : Nat) : Prop := k = idx ∨ (64 < off + w ∧ k = idx + 1)

/-- The command completes, writes no register, and stores the low `w` bits of `data` at the stream positions
`64 * idx + off ..< 64 * idx + off + w` and nowhere else (20_memory.md R50, R56): field bit `i` is bit `i` of `data`, every other
stream bit is as before, and so is every byte of a word the field does not touch. -/
def CompletesStore (idx off w : Nat) (data : Word) (s t : State) : Prop :=
  Succeeds s t ∧ SameX s t ∧ SameV s t ∧ t.draws = s.draws ∧ SameOutside s t
    ∧ (∀ i, i < w → Memory.streamBit t.mem (64 * idx + off + i) = data.getLsbD i)
    ∧ (∀ p, p < 64 * idx + off ∨ 64 * idx + off + w ≤ p → Memory.streamBit t.mem p = Memory.streamBit s.mem p)
    ∧ (∀ a, ¬ TouchesWord idx off w (a / 8) → t.readByte a = s.readByte a)

/-- The command faults: exactly the four writes of 60_exceptions.md R232 happen. -/
def Raises (code : Code) (cmd : Cmd) (s t : State) : Prop :=
  statCode t.stat = code.num ∧ statFaulted t.stat = true ∧ statErrSeen t.stat = true
    ∧ statReserved t.stat = statReserved s.stat ∧ t.faultCmd = cmd ∧ t.csi = s.csi
    ∧ SameX s t ∧ SameV s t ∧ SameStore s t ∧ t.draws = s.draws ∧ SameOutside s t

/-- `V[d]` holds the canonical form of the exact integer `z`: an N-bit pattern whose value is in `[MINV, MAXV]` and differs from `z` by a
multiple of `2^N` (00_scope.md R9, R12, 10_state.md R24). -/
def HoldsFolded (t : State) (d : VReg) (z : Int) : Prop :=
  (t.getV d).toNat < 2 ^ t.cfg.n ∧ minv t.cfg ≤ t.vval d ∧ t.vval d ≤ maxv t.cfg ∧ (2 ^ t.cfg.n : Int) ∣ t.vval d - z

/-- The geometry that every codec check passes (40_codec.md R100). -/
def GeometryOk (c : Config) (w off idx : Nat) : Prop :=
  1 ≤ w ∧ w ≤ 64 ∧ off ≤ 63 ∧ idx < c.nwords ∧ (64 < off + w → idx + 1 < c.nwords)

/-- The native register a command writes when it completes (10_state.md R22). -/
def destX : Instr → Option XReg
  | .xli d _ => some d
  | .setraw _ _ => none
  | .get d _ => some d
  | .tobf d _ => some d
  | .setchk _ _ => none
  | .zero _ => none
  | .copy _ _ => none
  | .maxb _ => none
  | .minb _ => none
  | .decode d _ _ _ => some d
  | .encode _ _ _ _ => none
  | .ldv _ _ _ => none
  | .stv _ _ _ => none
  | .add _ _ _ => none
  | .sub _ _ _ => none
  | .mul _ _ _ => none
  | .div _ _ _ => none
  | .mod _ _ _ => none
  | .neg _ _ => none
  | .abs _ _ => none
  | .succ _ _ => none
  | .pred _ _ => none
  | .gcd _ _ _ => none
  | .lcm _ _ _ => none
  | .pow _ _ _ => none
  | .shl _ _ _ => none
  | .shr _ _ _ => none
  | .shrz _ _ _ => none
  | .rotl _ _ _ => none
  | .rotr _ _ _ => none
  | .and _ _ _ => none
  | .or _ _ _ => none
  | .xor _ _ _ => none
  | .not _ _ => none
  | .cmp d _ _ => some d
  | .eq d _ _ => some d
  | .ne d _ _ => some d
  | .lt d _ _ => some d
  | .le d _ _ => some d
  | .gt d _ _ => some d
  | .ge d _ _ => some d
  | .rand _ => none

/-- The value register a command writes when it completes (10_state.md R25). -/
def destV : Instr → Option VReg
  | .xli _ _ => none
  | .setraw d _ => some d
  | .get _ _ => none
  | .tobf _ _ => none
  | .setchk d _ => some d
  | .zero d => some d
  | .copy d _ => some d
  | .maxb d => some d
  | .minb d => some d
  | .decode _ _ _ _ => none
  | .encode _ _ _ _ => none
  | .ldv d _ _ => some d
  | .stv _ _ _ => none
  | .add d _ _ => some d
  | .sub d _ _ => some d
  | .mul d _ _ => some d
  | .div d _ _ => some d
  | .mod d _ _ => some d
  | .neg d _ => some d
  | .abs d _ => some d
  | .succ d _ => some d
  | .pred d _ => some d
  | .gcd d _ _ => some d
  | .lcm d _ _ => some d
  | .pow d _ _ => some d
  | .shl d _ _ => some d
  | .shr d _ _ => some d
  | .shrz d _ _ => some d
  | .rotl d _ _ => some d
  | .rotr d _ _ => some d
  | .and d _ _ => some d
  | .or d _ _ => some d
  | .xor d _ _ => some d
  | .not d _ => some d
  | .cmp _ _ _ => none
  | .eq _ _ _ => none
  | .ne _ _ _ => none
  | .lt _ _ _ => none
  | .le _ _ _ => none
  | .gt _ _ _ => none
  | .ge _ _ _ => none
  | .rand d => some d

/-- The commands that write the store (10_state.md R32, 40_codec.md R102, R104). -/
def writesStore (i : Instr) : Bool :=
  match i with
  | .encode _ _ _ _ => true
  | .stv _ _ _ => true
  | _ => false

/-- The column "raised by" of the table of status codes (60_exceptions.md R230). No decoded command raises OK or IllegalCommand. -/
def mayRaise (code : Code) (i : Instr) : Bool :=
  match code, i with
  | .invalidWidth, .decode _ _ _ _ => true
  | .invalidWidth, .encode _ _ _ _ => true
  | .invalidOffset, .decode _ _ _ _ => true
  | .invalidOffset, .encode _ _ _ _ => true
  | .invalidOffset, .ldv _ _ _ => true
  | .invalidOffset, .stv _ _ _ => true
  | .arithmeticOverflow, .neg _ _ => true
  | .arithmeticOverflow, .abs _ _ => true
  | .arithmeticOverflow, .div _ _ _ => true
  | .arithmeticOverflow, .mod _ _ _ => true
  | .arithmeticOverflow, .gcd _ _ _ => true
  | .arithmeticOverflow, .lcm _ _ _ => true
  | .invalidOperation, .pow _ _ _ => true
  | .parseOverflow, .setchk _ _ => true
  | .divisionByZero, .div _ _ _ => true
  | .divisionByZero, .mod _ _ _ => true
  | .storeBounds, .decode _ _ _ _ => true
  | .storeBounds, .encode _ _ _ _ => true
  | .storeBounds, .ldv _ _ _ => true
  | .storeBounds, .stv _ _ _ => true
  | _, _ => false

/-- A safe run of a stream: no command has faulted since reset (60_exceptions.md R252). -/
def NoFaultSeen (s : State) : Prop := statErrSeen s.stat = false

end Sys2Proof.Machine
end

