-- ==== Sys2Proof/Certificates/Slice0/Obligations.lean ====
section
/-! DEFINITION. The statements for the provers, from the numbered rules of spec/. `s` is the state before a command, `t` the state after. A
pattern is read by `getX`, `getV`, a value by `vval`; the frames (`CompletesX`, `CompletesV`, `CompletesStore`, `Raises`) are in Safety.lean.
Statements about a value register's value ask for a legal instance or a legal state, and `EveryStepKeepsTheStateLegal` says that runs stay in
those. -/

open Sys2Proof Sys2Proof.Machine

/-! Encoding (30_encoding.md). -/

/-- R72 to R78, R82: the decoder reads back every command with every operand its encoding admits. -/
def Obligations.WellFormedCommandDecodesFromItsWord : Prop :=
  ∀ i : Instr, i.wellFormed = true → decode (encode i) = .ok i

/-- R72 to R79: a word that decodes is the word of the command it decodes to, so no bit of a legal word is ignored. -/
def Obligations.LegalWordIsTheWordOfItsCommand : Prop :=
  ∀ (cmd : Cmd) (i : Instr), decode cmd = .ok i → encode i = cmd ∧ i.wellFormed = true

/-- R81: every legal word is exactly one row of the opcode table, and every other word is illegal. -/
def Obligations.LegalWordsAreThoseOfExactlyOneRow : Prop :=
  ∀ cmd : Cmd,
    ((∃ i, decode cmd = .ok i) ↔ ∃! r : String × Cmd × Cmd,
        r ∈ opcodeRows.map (fun row => (row.mnemonic, row.mask, row.bits)) ∧ cmd &&& r.2.1 = r.2.2)
      ∧ ((∃ e, decode cmd = .error e) ↔ ∀ row ∈ opcodeRows, cmd &&& row.mask ≠ row.bits)

/-- R78: a written-out word of every group of R77, one or two each, decodes to its command. All but RAND's stand in 95_test_vectors.md, the
two illegal ones among them; RAND's word 0x60200000 is built from its row of R78 with D = 2. -/
def Obligations.WrittenOutWordsOfEveryGroupDecode : Prop :=
  decode 0x0120003A = .ok (.xli ⟨2⟩ 58) ∧ decode 0x01180000 = .ok (.xli ⟨1⟩ (-524288))
    ∧ decode 0x13410000 = .ok (.setchk ⟨4⟩ ⟨1⟩) ∧ decode 0x20423007 = .ok (.decode ⟨4⟩ ⟨2⟩ ⟨3⟩ 7)
    ∧ decode 0x23123000 = .ok (.stv ⟨1⟩ ⟨2⟩ ⟨3⟩) ∧ decode 0x3B312000 = .ok (.pow ⟨3⟩ ⟨1⟩ ⟨2⟩)
    ∧ decode 0x40214000 = .ok (.shl ⟨2⟩ ⟨1⟩ ⟨4⟩) ∧ decode 0x50624000 = .ok (.cmp ⟨6⟩ ⟨2⟩ ⟨4⟩)
    ∧ decode 0x60200000 = .ok (.rand ⟨2⟩) ∧ decode 0x22123001 = .error .mustBeZero ∧ decode 0 = .error .unassignedOpcode

/-- R79: a word with a listed opcode and a 1 in any bit its row's mask covers outside the opcode raises IllegalCommand. -/
def Obligations.MustBeZeroBitRaisesIllegalCommand : Prop :=
  ∀ (s : State) (cmd : Cmd) (rest : List HostAction) (row : Row),
    s.inbox = .issue cmd :: rest → statFaulted s.stat = false → row ∈ opcodeRows →
    cmd.extractLsb' 24 8 = row.bits.extractLsb' 24 8 → (∃ j, j < 24 ∧ row.mask.getLsbD j = true ∧ cmd.getLsbD j = true) →
    ∃ t, step s = .next t ∧ Raises .illegalCommand cmd (s.take rest) t

/-- R80: every unassigned opcode, the all-zero word among them, raises IllegalCommand. -/
def Obligations.UnassignedOpcodeRaisesIllegalCommand : Prop :=
  ∀ (s : State) (cmd : Cmd) (rest : List HostAction),
    s.inbox = .issue cmd :: rest → statFaulted s.stat = false →
    (∀ o : Nat, o = (cmd.extractLsb' 24 8).toNat →
      o = 0x00 ∨ (0x02 ≤ o ∧ o ≤ 0x0F) ∨ (0x18 ≤ o ∧ o ≤ 0x1F) ∨ (0x24 ≤ o ∧ o ≤ 0x2F) ∨ (0x3C ≤ o ∧ o ≤ 0x3F)
        ∨ (0x49 ≤ o ∧ o ≤ 0x4F) ∨ (0x57 ≤ o ∧ o ≤ 0x5F) ∨ 0x61 ≤ o) →
    ∃ t, step s = .next t ∧ Raises .illegalCommand cmd (s.take rest) t

/-! The step, the halt and the host port (45_control.md, 60_exceptions.md). -/

/-- R221, R250: a word issued to a running unit that decodes to `i` is executed as `i`. The host's queue, from which the step has taken the
transaction, and the cleared answer are the model's own (log 6, log 13). -/
def Obligations.StepExecutesTheDecodedCommand : Prop :=
  ∀ (s : State) (cmd : Cmd) (rest : List HostAction) (i : Instr),
    s.inbox = .issue cmd :: rest → statFaulted s.stat = false → decode cmd = .ok i →
    step s = exec i { s with inbox := rest, response := .done }

/-- R234: a halted unit accepts no word and no state changes. That the word leaves the host's queue and is answered `refused` is the model's
form of it (log 7). -/
def Obligations.HaltedUnitAcceptsNoWord : Prop :=
  ∀ (s : State) (cmd : Cmd) (rest : List HostAction),
    s.inbox = .issue cmd :: rest → statFaulted s.stat = true →
    step s = .next { s with inbox := rest, response := .refused }

/-- R235: ACK clears FAULTED and nothing else, and has no effect on a running unit. -/
def Obligations.AckClearsFaultedAlone : Prop :=
  ∀ (s : State) (rest : List HostAction), s.inbox = .ack :: rest →
    ∃ t, step s = .next t ∧ statFaulted t.stat = false ∧ statCode t.stat = statCode s.stat
      ∧ statErrSeen t.stat = statErrSeen s.stat ∧ statReserved t.stat = statReserved s.stat
      ∧ (statFaulted s.stat = false → t.stat = s.stat) ∧ t.faultCmd = s.faultCmd ∧ t.csi = s.csi
      ∧ SameX s t ∧ SameV s t ∧ SameStore s t ∧ t.draws = s.draws ∧ t.cfg = s.cfg ∧ t.inbox = rest

/-- R35, R260, R261: the values after power-on, for every instance and every STORE_INIT: all registers 0, running, the store at STORE_INIT;
and the host's later reset, which sets every register to 0 and does not write the store. -/
def Obligations.PowerOnAndResetValues : Prop :=
  (∀ (cfg : Config) (init : List Host.Cell),
    (∀ r, (State.powerOn cfg init).getX r = 0) ∧ (∀ r, (State.powerOn cfg init).getV r = 0) ∧ (State.powerOn cfg init).csi = 0
      ∧ statCode (State.powerOn cfg init).stat = Code.num .ok ∧ statFaulted (State.powerOn cfg init).stat = false
      ∧ statErrSeen (State.powerOn cfg init).stat = false ∧ statReserved (State.powerOn cfg init).stat = 0
      ∧ (State.powerOn cfg init).faultCmd = 0 ∧ (∀ a, (State.powerOn cfg init).readByte a = Memory.readByte init a)
      ∧ (State.powerOn cfg init).cfg = cfg)
  ∧ ∀ (s : State) (rest : List HostAction), s.inbox = .reset :: rest →
    ∃ t, step s = .next t ∧ (∀ r, t.getX r = 0) ∧ (∀ r, t.getV r = 0) ∧ t.csi = 0 ∧ t.stat = 0 ∧ t.faultCmd = 0
      ∧ SameStore s t ∧ t.cfg = s.cfg ∧ t.inbox = rest

/-- The invariant holds after power-on, for every legal instance and every STORE_INIT inside the store, and at `State.reset`. -/
def Obligations.PowerOnStateIsLegal : Prop :=
  (∀ (cfg : Config) (init : List Host.Cell), cfg.wf = true → Memory.wf init = true → Memory.below init (8 * cfg.nwords) = true →
      LegalState (State.powerOn cfg init)) ∧ LegalState State.reset

/-- 10_state.md R24, R29, R30, R32: every step keeps the state legal: value registers canonical, the store canonical and inside its NWORDS
words, reserved STAT bits 0, CODE in 0..8, halted only after a fault code. -/
def Obligations.EveryStepKeepsTheStateLegal : Prop :=
  ∀ s t : State, LegalState s → step s = .next t → LegalState t

/-- R24: after power-on of a legal instance, and after every step from a legal state, every value register's value is in `[MINV, MAXV]`, as
R9 defines the bounds. -/
def Obligations.ValueRegistersAreCanonical : Prop :=
  (∀ (cfg : Config) (init : List Host.Cell) (r : VReg), cfg.wf = true →
    (if cfg.signed then -2 ^ (cfg.n - 1) else 0) ≤ (State.powerOn cfg init).vval r
      ∧ (State.powerOn cfg init).vval r ≤ (if cfg.signed then 2 ^ (cfg.n - 1) - 1 else 2 ^ cfg.n - 1))
  ∧ ∀ s t : State, LegalState s → step s = .next t → ∀ r : VReg,
    (if t.cfg.signed then -2 ^ (t.cfg.n - 1) else 0) ≤ t.vval r
      ∧ t.vval r ≤ (if t.cfg.signed then 2 ^ (t.cfg.n - 1) - 1 else 2 ^ t.cfg.n - 1)

/-- R221, R265: every step answers a next state, from every state; R244: with nothing to perform the unit is idle and all state survives. -/
def Obligations.EveryStepAnswersANextState : Prop :=
  (∀ s : State, ∃ t, step s = .next t) ∧ ∀ s : State, s.inbox = [] → step s = .next s

/-- R29, R235: ERRSEEN is sticky: once set, only the host's reset clears it. -/
def Obligations.ErrSeenIsClearedOnlyByReset : Prop :=
  ∀ s t : State, step s = .next t → statErrSeen s.stat = true → (∀ rest, s.inbox ≠ .reset :: rest) → statErrSeen t.stat = true

/-- R5, R30: no step changes the instance's parameters, so CONFIG is constant. -/
def Obligations.ConfigurationIsConstant : Prop :=
  ∀ s t : State, step s = .next t → t.cfg = s.cfg ∧ configWord t.cfg = configWord s.cfg

/-- R232 to R235: only an issued word enters the halt, and only ACK or reset leaves it. -/
def Obligations.HaltIsEnteredByAWordAndLeftByAckOrReset : Prop :=
  ∀ s t : State, step s = .next t →
    (statFaulted s.stat = false → statFaulted t.stat = true → ∃ cmd rest, s.inbox = .issue cmd :: rest ∧ t.faultCmd = cmd)
      ∧ (statFaulted s.stat = true → statFaulted t.stat = false → ∃ rest, s.inbox = .ack :: rest ∨ s.inbox = .reset :: rest)

/-- R27, R31, R231, R232, R260: a word issued to a running unit either completes, and CSI alone advances by one, or faults, and FAULTCMD alone
gets the word; reset sets both to 0; no other step changes either. -/
def Obligations.CsiCountsCompletedCommands : Prop :=
  ∀ s t : State, step s = .next t →
    (∀ cmd rest, s.inbox = .issue cmd :: rest → statFaulted s.stat = false →
        (statFaulted t.stat = false ∧ t.csi = s.csi + 1 ∧ t.faultCmd = s.faultCmd)
          ∨ (statFaulted t.stat = true ∧ t.csi = s.csi ∧ t.faultCmd = cmd))
      ∧ (∀ rest, s.inbox = .reset :: rest → t.csi = 0 ∧ t.faultCmd = 0)
      ∧ ((∀ cmd rest, s.inbox = .issue cmd :: rest → statFaulted s.stat = true) → (∀ rest, s.inbox ≠ .reset :: rest) →
          t.csi = s.csi ∧ t.faultCmd = s.faultCmd)

/-- R250: the port's reads return what they name and change nothing. -/
def Obligations.PortReadsReturnTheStateUnchanged : Prop :=
  ∀ (s : State) (rest : List HostAction) (i : XReg) (w : Nat),
    (s.inbox = .readX i :: rest → step s = .next { s with inbox := rest, response := .value64 (s.getX i) })
      ∧ (s.inbox = .readStat :: rest → step s = .next { s with inbox := rest, response := .value32 s.stat })
      ∧ (s.inbox = .readConfig :: rest → step s = .next { s with inbox := rest, response := .value64 (configWord s.cfg) })
      ∧ (s.inbox = .readFaultCmd :: rest → step s = .next { s with inbox := rest, response := .value32 s.faultCmd })
      ∧ (s.inbox = .readCSI :: rest → step s = .next { s with inbox := rest, response := .value64 s.csi })
      ∧ (s.inbox = .readStore w :: rest → w < s.cfg.nwords →
          step s = .next { s with inbox := rest, response := .value64 (Memory.readWord s.mem w) })

/-- R250, R251: writeX writes its register alone, writeStore its word alone; a store word outside the store is refused by the port and nothing
happens (D45; log 8). -/
def Obligations.PortWritesAreExact : Prop :=
  ∀ (s : State) (rest : List HostAction) (i : XReg) (w : Nat) (v : Word), LegalState s →
    (s.inbox = .writeX i v :: rest → ∃ t, step s = .next t ∧ t.getX i = v ∧ SameXBut i s t ∧ SameV s t ∧ SameStore s t
        ∧ t.stat = s.stat ∧ t.csi = s.csi ∧ t.faultCmd = s.faultCmd ∧ t.cfg = s.cfg ∧ t.draws = s.draws ∧ t.inbox = rest)
      ∧ (s.inbox = .writeStore w v :: rest → w < s.cfg.nwords → ∃ t, step s = .next t ∧ Memory.readWord t.mem w = v
        ∧ (∀ a, a / 8 ≠ w → t.readByte a = s.readByte a) ∧ SameX s t ∧ SameV s t
        ∧ t.stat = s.stat ∧ t.csi = s.csi ∧ t.faultCmd = s.faultCmd ∧ t.cfg = s.cfg ∧ t.draws = s.draws ∧ t.inbox = rest)
      ∧ (s.cfg.nwords ≤ w → s.inbox = .writeStore w v :: rest ∨ s.inbox = .readStore w :: rest →
          step s = .next { s with inbox := rest, response := .refused })

/-- R30: the fields of CONFIG, which no step changes. -/
def Obligations.ConfigRegisterFields : Prop :=
  ∀ c : Config, c.wf = true →
    ((configWord c).extractLsb' 0 7).toNat = c.n ∧ (configWord c).getLsbD 7 = c.signed
      ∧ (configWord c).extractLsb' 8 24 = 0 ∧ ((configWord c).extractLsb' 32 32).toNat = c.nwords
      ∧ ∀ s t : State, s.cfg = c → step s = .next t → configWord t.cfg = configWord c

/-- R222: how a stream issued to a running unit ends: completed, CSI past its last command and not halted; or faulted at its first faulting
command, which every command before it completed, with no later command executed; to a halted unit, refused with the state unchanged.
For a stream of no words, of which R222 does not speak, `completed` is the model's choice (log 18). -/
def Obligations.StreamEndsCompletedFaultedOrRefused : Prop :=
  (∀ (cmds : List Cmd) (s : State), statFaulted s.stat = false →
    (∃ t, runStream cmds s = (.completed, t) ∧ t.csi = s.csi + BitVec.ofNat 64 cmds.length ∧ statFaulted t.stat = false)
      ∨ (∃ k cmd u t code, cmds[k]? = some cmd ∧ runStream (cmds.take k) s = (.completed, u) ∧ runStream cmds s = (.faulted, t)
          ∧ code ≠ .ok ∧ Raises code cmd u t ∧ t.csi = s.csi + BitVec.ofNat 64 k))
    ∧ ∀ (cmd : Cmd) (cmds : List Cmd) (s : State), statFaulted s.stat = true → runStream (cmd :: cmds) s = (.refused, s)

/-! Every command (41_value.md R120, 60_exceptions.md R230 to R236, 10_state.md R22, R25). -/

/-- R120, R231, R232, R236: every command either completes, or faults with exactly the fault entry's writes. -/
def Obligations.EveryCommandCompletesOrFaultsPrecisely : Prop :=
  ∀ (i : Instr) (s : State),
    ∃ t, exec i s = .next t ∧ SameOutside s t ∧ (Succeeds s t ∨ ∃ code, code ≠ .ok ∧ Raises code (encode i) s t)

/-- R230: each command raises only the codes that the table of status codes gives it. -/
def Obligations.CommandsRaiseOnlyTheirCodes : Prop :=
  ∀ (i : Instr) (s t : State) (code : Code), s.cfg.wf = true → code ≠ .ok → exec i s = .next t → Raises code (encode i) s t →
    mayRaise code i = true

/-- R22, R25, R32: a command writes no register but its destination, and only ENCODE and STV write the store. -/
def Obligations.CommandsWriteOnlyTheirDestination : Prop :=
  ∀ (i : Instr) (s t : State), exec i s = .next t →
    (∀ r, destX i ≠ some r → t.getX r = s.getX r) ∧ (∀ r, destV i ≠ some r → t.getV r = s.getV r)
      ∧ (writesStore i = false → ∀ a, t.readByte a = s.readByte a)

/-! The value commands (41_value.md). -/

/-- R121. -/
def Obligations.XliLoadsTheSignExtendedImmediate : Prop :=
  ∀ (s : State) (d : XReg) (imm : Int), -524288 ≤ imm → imm ≤ 524287 →
    encode (.xli d imm) = formatXI 0x01 d.num imm ∧
    ∃ t, exec (.xli d imm) s = .next t ∧ CompletesX d s t ∧ (t.getX d).toInt = imm

/-- R122. -/
def Obligations.SetrawNormalizes : Prop :=
  ∀ (s : State) (d : VReg) (a : XReg), s.cfg.wf = true →
    encode (.setraw d a) = formatR 0x10 d.num a.num 0 ∧
    ∃ t, exec (.setraw d a) s = .next t ∧ CompletesV d s t ∧ HoldsFolded t d (s.getX a).toNat
      ∧ HoldsFolded t d (s.getX a).toInt
      ∧ ∀ j, j < 64 → (t.getV d).getLsbD j = (decide (j < s.cfg.n) && (s.getX a).getLsbD j)

/-- R123, R124. -/
def Obligations.GetAndTobfReadAValueRegister : Prop :=
  ∀ (s : State) (d : XReg) (a : VReg), LegalState s →
    (encode (.get d a) = formatR 0x11 d.num a.num 0 ∧
      ∃ t, exec (.get d a) s = .next t ∧ CompletesX d s t ∧ ((t.getX d).toNat : Int) = s.vval a % 2 ^ 64
        ∧ ∀ j, j < 64 → (t.getX d).getLsbD j
            = if j < s.cfg.n then (s.getV a).getLsbD j else s.cfg.signed && (s.getV a).getLsbD (s.cfg.n - 1))
    ∧ (encode (.tobf d a) = formatR 0x12 d.num a.num 0 ∧
      ∃ t, exec (.tobf d a) s = .next t ∧ CompletesX d s t ∧ t.getX d = s.getV a
        ∧ ((t.getX d).toNat : Int) = if 0 ≤ s.vval a then s.vval a else s.vval a + 2 ^ s.cfg.n)

/-- R126. -/
def Obligations.NormalizationLaws : Prop :=
  (∀ (s : State) (a x : XReg) (d d' : VReg), s.cfg.wf = true →
    ∃ t u v, exec (.setraw d a) s = .next t ∧ exec (.get x d) t = .next u ∧ exec (.setraw d' x) u = .next v
      ∧ v.getV d' = t.getV d ∧ v.vval d' = t.vval d)
  ∧ (∀ (s : State) (a d : VReg) (x : XReg), LegalState s →
    ∃ t u, exec (.tobf x a) s = .next t ∧ exec (.setraw d x) t = .next u ∧ u.getV d = s.getV a)

/-- R127. -/
def Obligations.SetchkSetsOrRaisesParseOverflow : Prop :=
  ∀ (s : State) (d : VReg) (a : XReg) (z : Int), s.cfg.wf = true →
    z = (if s.cfg.signed then (s.getX a).toInt else (s.getX a).toNat) →
    encode (.setchk d a) = formatR 0x13 d.num a.num 0
    ∧ (minv s.cfg ≤ z ∧ z ≤ maxv s.cfg →
        ∃ t, exec (.setchk d a) s = .next t ∧ CompletesV d s t ∧ HoldsFolded t d z ∧ t.vval d = z)
    ∧ (z < minv s.cfg ∨ maxv s.cfg < z →
        ∃ t, exec (.setchk d a) s = .next t ∧ Raises .parseOverflow (encode (.setchk d a)) s t)

/-- R128, R129. -/
def Obligations.ZeroAndCopy : Prop :=
  ∀ (s : State) (d a : VReg),
    (encode (.zero d) = formatR 0x14 d.num 0 0 ∧
      ∃ t, exec (.zero d) s = .next t ∧ CompletesV d s t ∧ t.getV d = 0 ∧ t.vval d = 0)
    ∧ (encode (.copy d a) = formatR 0x15 d.num a.num 0 ∧
      ∃ t, exec (.copy d a) s = .next t ∧ CompletesV d s t ∧ t.getV d = s.getV a ∧ t.vval d = s.vval a)

/-- R9, R130, R131. -/
def Obligations.MaxbAndMinbLoadTheBounds : Prop :=
  ∀ (s : State) (d : VReg), s.cfg.wf = true →
    (encode (.maxb d) = formatR 0x16 d.num 0 0 ∧
      ∃ t, exec (.maxb d) s = .next t ∧ CompletesV d s t ∧ (t.getV d).toNat < 2 ^ s.cfg.n
        ∧ t.vval d = if s.cfg.signed then 2 ^ (s.cfg.n - 1) - 1 else 2 ^ s.cfg.n - 1)
    ∧ (encode (.minb d) = formatR 0x17 d.num 0 0 ∧
      ∃ t, exec (.minb d) s = .next t ∧ CompletesV d s t ∧ (t.getV d).toNat < 2 ^ s.cfg.n
        ∧ t.vval d = if s.cfg.signed then -2 ^ (s.cfg.n - 1) else 0)

/-! The codec (40_codec.md). -/

/-- R50, R101: DECODE reads the field bit by bit from the stream and zero-extends it. -/
def Obligations.DecodeReadsTheField : Prop :=
  ∀ (s : State) (d xi xo : XReg) (w : Nat), GeometryOk s.cfg w (s.getX xo).toNat (s.getX xi).toNat →
    encode (.decode d xi xo w) = formatC 0x20 d.num xi.num xo.num w ∧
    ∃ t, exec (.decode d xi xo w) s = .next t ∧ CompletesX d s t
      ∧ ∀ j, j < 64 → (t.getX d).getLsbD j
          = (decide (j < w) && Memory.streamBit s.mem (64 * (s.getX xi).toNat + (s.getX xo).toNat + j))

/-- R50, R56, R102: ENCODE stores the low `w` bits of its register at the field and changes nothing else. -/
def Obligations.EncodeStoresTheField : Prop :=
  ∀ (s : State) (src xi xo : XReg) (w : Nat), LegalState s → GeometryOk s.cfg w (s.getX xo).toNat (s.getX xi).toNat →
    encode (.encode src xi xo w) = formatC 0x21 src.num xi.num xo.num w ∧
    ∃ t, exec (.encode src xi xo w) s = .next t
      ∧ CompletesStore (s.getX xi).toNat (s.getX xo).toNat w (s.getX src) s t

/-- R50, R103: LDV loads the N-bit field. -/
def Obligations.LdvLoadsTheField : Prop :=
  ∀ (s : State) (d : VReg) (xi xo : XReg), s.cfg.wf = true →
    GeometryOk s.cfg s.cfg.n (s.getX xo).toNat (s.getX xi).toNat →
    encode (.ldv d xi xo) = formatC 0x22 d.num xi.num xo.num 0 ∧
    ∃ t, exec (.ldv d xi xo) s = .next t ∧ CompletesV d s t
      ∧ ∀ j, j < 64 → (t.getV d).getLsbD j
          = (decide (j < s.cfg.n) && Memory.streamBit s.mem (64 * (s.getX xi).toNat + (s.getX xo).toNat + j))

/-- R50, R56, R104: STV stores the pattern of its register at the N-bit field and changes nothing else. -/
def Obligations.StvStoresTheField : Prop :=
  ∀ (s : State) (src : VReg) (xi xo : XReg), LegalState s → GeometryOk s.cfg s.cfg.n (s.getX xo).toNat (s.getX xi).toNat →
    encode (.stv src xi xo) = formatC 0x23 src.num xi.num xo.num 0 ∧
    ∃ t, exec (.stv src xi xo) s = .next t
      ∧ CompletesStore (s.getX xi).toNat (s.getX xo).toNat s.cfg.n (s.getV src) s t

/-- R100, R233: DECODE and ENCODE report the first failing geometry check. -/
def Obligations.RawCodecReportsTheFirstFailingCheck : Prop :=
  ∀ (s : State) (r xi xo : XReg) (w off idx : Nat) (i : Instr), off = (s.getX xo).toNat → idx = (s.getX xi).toNat →
    i = .decode r xi xo w ∨ i = .encode r xi xo w →
    (w < 1 ∨ 64 < w → ∃ t, exec i s = .next t ∧ Raises .invalidWidth (encode i) s t)
    ∧ (1 ≤ w ∧ w ≤ 64 ∧ 63 < off → ∃ t, exec i s = .next t ∧ Raises .invalidOffset (encode i) s t)
    ∧ (1 ≤ w ∧ w ≤ 64 ∧ off ≤ 63 ∧ (s.cfg.nwords ≤ idx ∨ (64 < off + w ∧ s.cfg.nwords ≤ idx + 1)) →
        ∃ t, exec i s = .next t ∧ Raises .storeBounds (encode i) s t)

/-- R100, R103, R104, R233: LDV and STV, of width N, report the first failing check; InvalidWidth cannot occur. -/
def Obligations.ValueCodecReportsTheFirstFailingCheck : Prop :=
  ∀ (s : State) (v : VReg) (xi xo : XReg) (off idx : Nat) (i : Instr), s.cfg.wf = true →
    off = (s.getX xo).toNat → idx = (s.getX xi).toNat → i = .ldv v xi xo ∨ i = .stv v xi xo →
    (63 < off → ∃ t, exec i s = .next t ∧ Raises .invalidOffset (encode i) s t)
    ∧ (off ≤ 63 ∧ (s.cfg.nwords ≤ idx ∨ (64 < off + s.cfg.n ∧ s.cfg.nwords ≤ idx + 1)) →
        ∃ t, exec i s = .next t ∧ Raises .storeBounds (encode i) s t)

/-- R105: the round trip at any legal geometry, and at width N through a value register. -/
def Obligations.CodecRoundTrip : Prop :=
  (∀ (s : State) (src d xi xo : XReg) (w : Nat), LegalState s → GeometryOk s.cfg w (s.getX xo).toNat (s.getX xi).toNat →
    ∃ t u, exec (.encode src xi xo w) s = .next t ∧ exec (.decode d xi xo w) t = .next u
      ∧ (∀ j, j < 64 → (u.getX d).getLsbD j = (decide (j < w) && (s.getX src).getLsbD j))
      ∧ ∀ p, p < 64 * (s.getX xi).toNat + (s.getX xo).toNat ∨ 64 * (s.getX xi).toNat + (s.getX xo).toNat + w ≤ p →
          Memory.streamBit t.mem p = Memory.streamBit s.mem p)
  ∧ (∀ (s : State) (src d : VReg) (xi xo : XReg), LegalState s → GeometryOk s.cfg s.cfg.n (s.getX xo).toNat (s.getX xi).toNat →
    ∃ t u, exec (.stv src xi xo) s = .next t ∧ exec (.ldv d xi xo) t = .next u ∧ u.getV d = s.getV src)

/-- R106: the codec is signedness-blind: with SIGNED the other way, the same registers and the same store result. -/
def Obligations.CodecIgnoresSignedness : Prop :=
  ∀ (s t : State) (b : Bool) (r xi xo : XReg) (v : VReg) (w : Nat) (i : Instr),
    i = .decode r xi xo w ∨ i = .encode r xi xo w ∨ i = .ldv v xi xo ∨ i = .stv v xi xo →
    exec i s = .next t →
    exec i { s with cfg := { s.cfg with signed := b } } = .next { t with cfg := { t.cfg with signed := b } }

/-! Arithmetic (42_arith.md). -/

/-- R150, R151, R152. -/
def Obligations.AddSubMulWrap : Prop :=
  ∀ (s : State) (d a b : VReg), s.cfg.wf = true →
    (encode (.add d a b) = formatR 0x30 d.num a.num b.num ∧
      ∃ t, exec (.add d a b) s = .next t ∧ CompletesV d s t ∧ HoldsFolded t d (s.vval a + s.vval b))
    ∧ (encode (.sub d a b) = formatR 0x31 d.num a.num b.num ∧
      ∃ t, exec (.sub d a b) s = .next t ∧ CompletesV d s t ∧ HoldsFolded t d (s.vval a - s.vval b))
    ∧ (encode (.mul d a b) = formatR 0x32 d.num a.num b.num ∧
      ∃ t, exec (.mul d a b) s = .next t ∧ CompletesV d s t ∧ HoldsFolded t d (s.vval a * s.vval b))

/-- R157, R158. -/
def Obligations.SuccPredWrap : Prop :=
  ∀ (s : State) (d a : VReg), s.cfg.wf = true →
    (encode (.succ d a) = formatR 0x37 d.num a.num 0 ∧
      ∃ t, exec (.succ d a) s = .next t ∧ CompletesV d s t ∧ HoldsFolded t d (s.vval a + 1))
    ∧ (encode (.pred d a) = formatR 0x38 d.num a.num 0 ∧
      ∃ t, exec (.pred d a) s = .next t ∧ CompletesV d s t ∧ HoldsFolded t d (s.vval a - 1))

/-- R153, R154: where they succeed, DIV and MOD give the quotient rounded toward zero and its remainder, exactly. -/
def Obligations.DivModTruncate : Prop :=
  ∀ (s : State) (d a b : VReg), LegalState s → s.vval b ≠ 0 →
    ¬ (s.cfg.signed = true ∧ s.vval a = minv s.cfg ∧ s.vval b = -1) →
    encode (.div d a b) = formatR 0x33 d.num a.num b.num ∧ encode (.mod d a b) = formatR 0x34 d.num a.num b.num ∧
    ∃ t u, exec (.div d a b) s = .next t ∧ exec (.mod d a b) s = .next u ∧ CompletesV d s t ∧ CompletesV d s u
      ∧ (t.getV d).toNat < 2 ^ s.cfg.n ∧ (u.getV d).toNat < 2 ^ s.cfg.n
      ∧ s.vval a = s.vval b * t.vval d + u.vval d ∧ |u.vval d| < |s.vval b| ∧ 0 ≤ s.vval a * u.vval d

/-- R153, R154, R233: a divisor 0, then signed `MINV` by -1, MOD among them (90_conflicts.md C3). -/
def Obligations.DivModFault : Prop :=
  ∀ (s : State) (d a b : VReg) (i : Instr), i = .div d a b ∨ i = .mod d a b →
    (s.vval b = 0 → ∃ t, exec i s = .next t ∧ Raises .divisionByZero (encode i) s t)
    ∧ (s.cfg.signed = true → s.vval a = minv s.cfg → s.vval b = -1 →
        ∃ t, exec i s = .next t ∧ Raises .arithmeticOverflow (encode i) s t)

/-- R155, R156. -/
def Obligations.NegAbsRaiseOnlyOnSignedMinv : Prop :=
  ∀ (s : State) (d a : VReg), s.cfg.wf = true →
    encode (.neg d a) = formatR 0x35 d.num a.num 0 ∧ encode (.abs d a) = formatR 0x36 d.num a.num 0
    ∧ (s.cfg.signed = true ∧ s.vval a = minv s.cfg →
        (∃ t, exec (.neg d a) s = .next t ∧ Raises .arithmeticOverflow (encode (.neg d a)) s t)
        ∧ ∃ t, exec (.abs d a) s = .next t ∧ Raises .arithmeticOverflow (encode (.abs d a)) s t)
    ∧ (¬ (s.cfg.signed = true ∧ s.vval a = minv s.cfg) →
        (∃ t, exec (.neg d a) s = .next t ∧ CompletesV d s t ∧ HoldsFolded t d (-s.vval a))
        ∧ ∃ t, exec (.abs d a) s = .next t ∧ CompletesV d s t ∧ HoldsFolded t d |s.vval a|)

/-- R159: GCD gives the greatest common divisor, never negative, and overflows exactly at signed `MINV` with 0 or `MINV`. -/
def Obligations.GcdIsTheGreatestCommonDivisor : Prop :=
  ∀ (s : State) (d a b : VReg), LegalState s →
    encode (.gcd d a b) = formatR 0x39 d.num a.num b.num ∧
    if s.cfg.signed = true ∧ (s.vval a = minv s.cfg ∧ s.vval b = 0 ∨ s.vval a = 0 ∧ s.vval b = minv s.cfg
        ∨ s.vval a = minv s.cfg ∧ s.vval b = minv s.cfg)
    then ∃ t, exec (.gcd d a b) s = .next t ∧ Raises .arithmeticOverflow (encode (.gcd d a b)) s t
    else ∃ t, exec (.gcd d a b) s = .next t ∧ CompletesV d s t ∧ (t.getV d).toNat < 2 ^ s.cfg.n ∧ 0 ≤ t.vval d
      ∧ t.vval d ∣ s.vval a ∧ t.vval d ∣ s.vval b ∧ ∀ k : Int, k ∣ s.vval a → k ∣ s.vval b → k ∣ t.vval d

/-- R160: LCM gives the least common multiple, or overflows exactly when it exceeds `MAXV`. -/
def Obligations.LcmIsTheLeastCommonMultiple : Prop :=
  ∀ (s : State) (d a b : VReg), s.cfg.wf = true →
    encode (.lcm d a b) = formatR 0x3A d.num a.num b.num
    ∧ (maxv s.cfg < Int.lcm (s.vval a) (s.vval b) →
        ∃ t, exec (.lcm d a b) s = .next t ∧ Raises .arithmeticOverflow (encode (.lcm d a b)) s t)
    ∧ (Int.lcm (s.vval a) (s.vval b) ≤ maxv s.cfg →
        ∃ t, exec (.lcm d a b) s = .next t ∧ CompletesV d s t ∧ (t.getV d).toNat < 2 ^ s.cfg.n
          ∧ t.vval d = Int.lcm (s.vval a) (s.vval b))

/-- R161: POW wraps the exact power, and rejects `0^0` and a negative exponent. -/
def Obligations.PowWrapsTheExactPower : Prop :=
  ∀ (s : State) (d a b : VReg), s.cfg.wf = true →
    encode (.pow d a b) = formatR 0x3B d.num a.num b.num
    ∧ ((s.vval a = 0 ∧ s.vval b = 0) ∨ s.vval b < 0 →
        ∃ t, exec (.pow d a b) s = .next t ∧ Raises .invalidOperation (encode (.pow d a b)) s t)
    ∧ (¬ (s.vval a = 0 ∧ s.vval b = 0) → 0 ≤ s.vval b →
        ∃ t, exec (.pow d a b) s = .next t ∧ CompletesV d s t ∧ HoldsFolded t d (s.vval a ^ (s.vval b).toNat))

/-- R163. -/
def Obligations.WraparoundLaws : Prop :=
  ∀ (s : State) (d a : VReg), LegalState s →
    (s.cfg.signed = true → s.vval a = 2 ^ (s.cfg.n - 1) - 1 →
      ∃ t, exec (.succ d a) s = .next t ∧ t.vval d = -2 ^ (s.cfg.n - 1))
    ∧ (s.cfg.signed = true → s.vval a = -2 ^ (s.cfg.n - 1) →
      ∃ t, exec (.pred d a) s = .next t ∧ t.vval d = 2 ^ (s.cfg.n - 1) - 1)
    ∧ (s.cfg.signed = false → s.vval a = 2 ^ s.cfg.n - 1 → ∃ t, exec (.succ d a) s = .next t ∧ t.vval d = 0)
    ∧ (s.cfg.signed = false → s.vval a = 0 → ∃ t, exec (.pred d a) s = .next t ∧ t.vval d = 2 ^ s.cfg.n - 1)

/-- R164. -/
def Obligations.OverflowDetectionLaws : Prop :=
  ∀ (s : State) (d a b : VReg), s.cfg.signed = true → s.vval a = -2 ^ (s.cfg.n - 1) → s.vval b = -1 →
    (∃ t, exec (.neg d a) s = .next t ∧ Raises .arithmeticOverflow (encode (.neg d a)) s t)
    ∧ (∃ t, exec (.abs d a) s = .next t ∧ Raises .arithmeticOverflow (encode (.abs d a)) s t)
    ∧ ∃ t, exec (.div d a b) s = .next t ∧ Raises .arithmeticOverflow (encode (.div d a b)) s t

/-! Shifts, rotates, bitwise (43_bitops.md). -/

/-- R180, R181: SHL by `k >= 0` multiplies by `2^(k mod N)` and wraps; a negative count shifts right. -/
def Obligations.ShlShiftsModuloTheWidth : Prop :=
  ∀ (s : State) (d a : VReg) (b : XReg) (k : Int), LegalState s → k = (s.getX b).toInt →
    encode (.shl d a b) = formatR 0x40 d.num a.num b.num ∧
    ∃ t, exec (.shl d a b) s = .next t ∧ CompletesV d s t
      ∧ (0 ≤ k → HoldsFolded t d (s.vval a * 2 ^ (k.toNat % s.cfg.n)))
      ∧ (k < 0 → s.cfg.signed = true → HoldsFolded t d (s.vval a / 2 ^ (-k).toNat))
      ∧ (k < 0 → s.cfg.signed = false → (t.getV d).toNat = (s.getV a).toNat / 2 ^ (-k).toNat)

/-- R180, R182: signed SHR by `k >= 0` is the floor of `a / 2^k`, with no modulo; unsigned SHR fills with zero; a negative count shifts left. -/
def Obligations.ShrShiftsArithmetically : Prop :=
  ∀ (s : State) (d a : VReg) (b : XReg) (k : Int), LegalState s → k = (s.getX b).toInt →
    encode (.shr d a b) = formatR 0x41 d.num a.num b.num ∧
    ∃ t, exec (.shr d a b) s = .next t ∧ CompletesV d s t
      ∧ (0 ≤ k → s.cfg.signed = true → HoldsFolded t d (s.vval a / 2 ^ k.toNat))
      ∧ (0 ≤ k → s.cfg.signed = false → (t.getV d).toNat = (s.getV a).toNat / 2 ^ k.toNat)
      ∧ (k < 0 → HoldsFolded t d (s.vval a * 2 ^ ((-k).toNat % s.cfg.n)))

/-- R180, R183: SHRZ by `k >= 0` shifts the N-bit pattern with zero fill, with no modulo; a negative count shifts left. -/
def Obligations.ShrzShiftsThePatternWithZeroFill : Prop :=
  ∀ (s : State) (d a : VReg) (b : XReg) (k : Int), LegalState s → k = (s.getX b).toInt →
    encode (.shrz d a b) = formatR 0x42 d.num a.num b.num ∧
    ∃ t, exec (.shrz d a b) s = .next t ∧ CompletesV d s t
      ∧ (0 ≤ k → (t.getV d).toNat = (s.getV a).toNat / 2 ^ k.toNat)
      ∧ (k < 0 → HoldsFolded t d (s.vval a * 2 ^ ((-k).toNat % s.cfg.n)))

/-- R190. -/
def Obligations.ShiftLaws : Prop :=
  (∀ (s : State) (d a : VReg) (b : XReg), LegalState s → (s.getX b).toInt = s.cfg.n ∨ (s.getX b).toInt = 0 →
    ∃ t, exec (.shl d a b) s = .next t ∧ t.getV d = s.getV a ∧ t.vval d = s.vval a)
  ∧ ∀ (s : State) (d a : VReg) (b : XReg), s.cfg.signed = false → exec (.shr d a b) s = exec (.shrz d a b) s

/-- R184, R185: bit `j` of the pattern moves to bit `(j + k) mod N`, for ROTR with `k` negated. -/
def Obligations.RotatesMoveBitsModuloTheWidth : Prop :=
  ∀ (s : State) (d a : VReg) (b : XReg) (k : Int), LegalState s → k = (s.getX b).toInt →
    (encode (.rotl d a b) = formatR 0x43 d.num a.num b.num ∧
      ∃ t, exec (.rotl d a b) s = .next t ∧ CompletesV d s t ∧ (t.getV d).toNat < 2 ^ s.cfg.n
        ∧ ∀ j : Nat, j < s.cfg.n → (t.getV d).getLsbD ((j + k) % s.cfg.n).toNat = (s.getV a).getLsbD j)
    ∧ (encode (.rotr d a b) = formatR 0x44 d.num a.num b.num ∧
      ∃ t, exec (.rotr d a b) s = .next t ∧ CompletesV d s t ∧ (t.getV d).toNat < 2 ^ s.cfg.n
        ∧ ∀ j : Nat, j < s.cfg.n → (t.getV d).getLsbD ((j - k) % s.cfg.n).toNat = (s.getV a).getLsbD j)

/-- R186 to R189: the bitwise commands on patterns, and NOT's value law. -/
def Obligations.BitwiseCommandsWorkOnPatterns : Prop :=
  ∀ (s : State) (d a b : VReg), LegalState s →
    (encode (.and d a b) = formatR 0x45 d.num a.num b.num ∧
      ∃ t, exec (.and d a b) s = .next t ∧ CompletesV d s t
        ∧ ∀ j, (t.getV d).getLsbD j = ((s.getV a).getLsbD j && (s.getV b).getLsbD j))
    ∧ (encode (.or d a b) = formatR 0x46 d.num a.num b.num ∧
      ∃ t, exec (.or d a b) s = .next t ∧ CompletesV d s t
        ∧ ∀ j, (t.getV d).getLsbD j = ((s.getV a).getLsbD j || (s.getV b).getLsbD j))
    ∧ (encode (.xor d a b) = formatR 0x47 d.num a.num b.num ∧
      ∃ t, exec (.xor d a b) s = .next t ∧ CompletesV d s t
        ∧ ∀ j, (t.getV d).getLsbD j = ((s.getV a).getLsbD j ^^ (s.getV b).getLsbD j))
    ∧ (encode (.not d a) = formatR 0x48 d.num a.num 0 ∧
      ∃ t, exec (.not d a) s = .next t ∧ CompletesV d s t
        ∧ (∀ j, (t.getV d).getLsbD j = (decide (j < s.cfg.n) && !(s.getV a).getLsbD j))
        ∧ t.vval d = if s.cfg.signed then -s.vval a - 1 else 2 ^ s.cfg.n - 1 - s.vval a)

/-! Comparison and random (44_compare_random.md). -/

/-- R210 to R216: the comparisons write -1, 0 or 1, and 1 or 0, to a native register. -/
def Obligations.ComparisonsWriteTheirResult : Prop :=
  ∀ (s : State) (d : XReg) (a b : VReg),
    (encode (.cmp d a b) = formatR 0x50 d.num a.num b.num ∧ ∃ t, exec (.cmp d a b) s = .next t ∧ CompletesX d s t
      ∧ (t.getX d).toInt = if s.vval a < s.vval b then -1 else if s.vval a = s.vval b then 0 else 1)
    ∧ (encode (.eq d a b) = formatR 0x51 d.num a.num b.num ∧ ∃ t, exec (.eq d a b) s = .next t ∧ CompletesX d s t
      ∧ (t.getX d).toNat = if s.vval a = s.vval b then 1 else 0)
    ∧ (encode (.ne d a b) = formatR 0x52 d.num a.num b.num ∧ ∃ t, exec (.ne d a b) s = .next t ∧ CompletesX d s t
      ∧ (t.getX d).toNat = if s.vval a = s.vval b then 0 else 1)
    ∧ (encode (.lt d a b) = formatR 0x53 d.num a.num b.num ∧ ∃ t, exec (.lt d a b) s = .next t ∧ CompletesX d s t
      ∧ (t.getX d).toNat = if s.vval a < s.vval b then 1 else 0)
    ∧ (encode (.le d a b) = formatR 0x54 d.num a.num b.num ∧ ∃ t, exec (.le d a b) s = .next t ∧ CompletesX d s t
      ∧ (t.getX d).toNat = if s.vval a ≤ s.vval b then 1 else 0)
    ∧ (encode (.gt d a b) = formatR 0x55 d.num a.num b.num ∧ ∃ t, exec (.gt d a b) s = .next t ∧ CompletesX d s t
      ∧ (t.getX d).toNat = if s.vval b < s.vval a then 1 else 0)
    ∧ (encode (.ge d a b) = formatR 0x56 d.num a.num b.num ∧ ∃ t, exec (.ge d a b) s = .next t ∧ CompletesX d s t
      ∧ (t.getX d).toNat = if s.vval b ≤ s.vval a then 1 else 0)

/-- R217: the comparison laws, read from the results in the destination register; no comparison ever fails. -/
def Obligations.ComparisonLaws : Prop :=
  ∀ (s : State) (d : XReg) (a b : VReg),
    ∃ tc te tn tl tle tg tge, exec (.cmp d a b) s = .next tc ∧ exec (.eq d a b) s = .next te ∧ exec (.ne d a b) s = .next tn
      ∧ exec (.lt d a b) s = .next tl ∧ exec (.le d a b) s = .next tle ∧ exec (.gt d a b) s = .next tg
      ∧ exec (.ge d a b) s = .next tge
      ∧ (tl.getX d).toNat + (te.getX d).toNat + (tg.getX d).toNat = 1
      ∧ ((tc.getX d).toInt = -1 ↔ tl.getX d = 1) ∧ ((tc.getX d).toInt = 0 ↔ te.getX d = 1) ∧ ((tc.getX d).toInt = 1 ↔ tg.getX d = 1)
      ∧ tle.getX d = tl.getX d ||| te.getX d ∧ tge.getX d = tg.getX d ||| te.getX d
      ∧ (tn.getX d).toNat = 1 - (te.getX d).toNat
      ∧ Succeeds s tc ∧ Succeeds s te ∧ Succeeds s tn ∧ Succeeds s tl ∧ Succeeds s tle ∧ Succeeds s tg ∧ Succeeds s tge

/-- R218, R219: RAND completes, takes exactly one draw and writes a value in `[MINV, MAXV]` that depends on the unit's state only through the
instance and the number of draws taken; with the draw as an argument, every value of the range is a possible result. That the draw is a free
value counted by `draws` is the model's form (log 5). -/
def Obligations.RandWritesAFreeDraw : Prop :=
  ∀ (s : State) (d : VReg), s.cfg.wf = true →
    encode (.rand d) = formatR 0x60 d.num 0 0
    ∧ (∃ t, exec (.rand d) s = .next t ∧ Succeeds s t ∧ SameX s t ∧ SameVBut d s t ∧ SameStore s t ∧ SameOutside s t
        ∧ t.draws = s.draws + 1 ∧ (t.getV d).toNat < 2 ^ s.cfg.n ∧ minv s.cfg ≤ t.vval d ∧ t.vval d ≤ maxv s.cfg
        ∧ ∀ (s' t' : State) (d' : VReg), s'.cfg = s.cfg → s'.draws = s.draws → exec (.rand d') s' = .next t' →
            t'.getV d' = t.getV d)
    ∧ ∀ r : Int, minv s.cfg ≤ r → r ≤ maxv s.cfg → (s.randWith d r).vval d = r ∧ ((s.randWith d r).getV d).toNat < 2 ^ s.cfg.n
end

