-- ==== Sys2Proof/Laws/Decode.lean ====
section
/-! SUPPORT. The fields of each format, and what the decoder answers on a word that a row selects (30_encoding.md R71 to R82). -/

namespace Sys2Proof

/-- No two rows select the same opcode, and every mask covers the opcode (30_encoding.md R78). -/
theorem opcodeRows_distinct :
    opcodeRows.Pairwise (fun r q => r.bits &&& 0xFF000000#32 ≠ q.bits &&& 0xFF000000#32) := by decide +kernel

theorem opcodeRows_mask_opcode : ∀ r ∈ opcodeRows, r.mask &&& 0xFF000000#32 = 0xFF000000#32 := by decide +kernel

/-- The opcode of a word that a row selects. -/
theorem Row.opcode_of_selects {r : Row} (hr : r ∈ opcodeRows) {cmd : Cmd} (h : r.selects cmd = true) :
    cmd &&& 0xFF000000#32 = r.bits &&& 0xFF000000#32 := by
  have h1 : cmd &&& r.mask = r.bits := by simpa [Row.selects] using h
  rw [← h1, BitVec.and_assoc, opcodeRows_mask_opcode r hr]

/-- A row that selects the word is the row the decoder finds. -/
theorem find_of_selects {l : List Row} (hl : l.Pairwise (fun r q => r.bits &&& 0xFF000000#32 ≠ q.bits &&& 0xFF000000#32))
    (hsub : ∀ r ∈ l, r ∈ opcodeRows) {r : Row} (hr : r ∈ l) {cmd : Cmd} (h : r.selects cmd = true) :
    l.find? (fun q => q.selects cmd) = some r := by
  induction l with
  | nil => simp at hr
  | cons q rest ih =>
    rw [List.pairwise_cons] at hl
    rcases List.mem_cons.1 hr with rfl | hr'
    · simp [h]
    · have hq : q.selects cmd = false := by
        by_contra hc
        have h1 := Row.opcode_of_selects (hsub q (by simp)) (by simpa using hc)
        have h2 := Row.opcode_of_selects (hsub r (by simp [hr'])) h
        exact hl.1 r hr' (h1.symm.trans h2)
      rw [List.find?_cons_of_neg (by simp [hq])]
      exact ih hl.2 (fun x hx => hsub x (by simp [hx])) hr'

/-- A word that a row of the table selects decodes to that row's command (30_encoding.md R82). -/
theorem decode_of_selects {r : Row} (hr : r ∈ opcodeRows) {cmd : Cmd} (h : r.selects cmd = true) :
    decode cmd = .ok (r.build (fieldsOf cmd)) := by
  rw [decode, find_of_selects opcodeRows_distinct (fun _ hx => hx) hr h]

/-- A word the decoder accepts is selected by the row it was read with. -/
theorem selects_of_decode {cmd : Cmd} {i : Instr} (h : decode cmd = .ok i) :
    ∃ r ∈ opcodeRows, r.selects cmd = true ∧ i = r.build (fieldsOf cmd) := by
  rw [decode] at h
  split at h
  · next r hr =>
    refine ⟨r, List.mem_of_find?_eq_some hr, by simpa using List.find?_some hr, ?_⟩
    injection h with h
    exact h.symm
  · split at h <;> exact absurd h (by simp)

/-! The fields of the three formats. -/

theorem extract_append_hi {a b : Nat} (x : BitVec a) (y : BitVec b) : (x ++ y).extractLsb' b a = x := by
  apply BitVec.eq_of_getLsbD_eq
  intro i hi
  simp [hi, BitVec.getLsbD_append]

/-- The fields of a word, bit by bit: its five pieces appended. -/
theorem fields_of_append (opc : BitVec 8) (d a b : BitVec 4) (lo : BitVec 12) :
    let cmd : Cmd := opc ++ d ++ a ++ b ++ lo
    cmd.extractLsb' 20 4 = d ∧ cmd.extractLsb' 16 4 = a ∧ cmd.extractLsb' 12 4 = b
      ∧ cmd.extractLsb' 0 7 = lo.extractLsb' 0 7 := by
  intro cmd
  have bit : ∀ i, cmd.getLsbD i = if i < 12 then lo.getLsbD i else if i < 16 then b.getLsbD (i - 12)
      else if i < 20 then a.getLsbD (i - 16) else if i < 24 then d.getLsbD (i - 20) else opc.getLsbD (i - 24) := by
    intro i
    show BitVec.getLsbD (w := 8 + 4 + 4 + 4 + 12) (opc ++ d ++ a ++ b ++ lo) i = _
    simp only [BitVec.getLsbD_append]
    by_cases h1 : i < 12
    · simp [h1]
    · by_cases h2 : i < 16
      · simp [h1, h2, show i - 12 < 4 by omega]
      · by_cases h3 : i < 20
        · simp [h1, h2, h3, show ¬ (i - 12 < 4) by omega, show i - 16 < 4 by omega, show i - 12 - 4 = i - 16 by omega]
        · by_cases h4 : i < 24
          · simp [h1, h2, h3, h4, show ¬ (i - 12 < 4) by omega, show ¬ (i - 12 - 4 < 4) by omega,
              show i - 20 < 4 by omega, show i - 12 - 4 - 4 = i - 20 by omega]
          · simp [h1, h2, h3, h4, show ¬ (i - 12 < 4) by omega, show ¬ (i - 12 - 4 < 4) by omega,
              show ¬ (i - 12 - 4 - 4 < 4) by omega, show i - 12 - 4 - 4 - 4 = i - 24 by omega]
  refine ⟨?_, ?_, ?_, ?_⟩ <;> apply BitVec.eq_of_getLsbD_eq <;> intro i hi <;>
    rw [BitVec.getLsbD_extractLsb', bit]
  · rw [if_neg (by omega), if_neg (by omega), if_neg (by omega), if_pos (by omega), show 20 + i - 20 = i by omega]
    simp [hi]
  · rw [if_neg (by omega), if_neg (by omega), if_pos (by omega), show 16 + i - 16 = i by omega]
    simp [hi]
  · rw [if_neg (by omega), if_pos (by omega), show 12 + i - 12 = i by omega]
    simp [hi]
  · rw [if_pos (by omega), BitVec.getLsbD_extractLsb']

/-- The fields that format R carries. -/
theorem fieldsOf_formatR (opc : BitVec 8) (d a b : BitVec 4) :
    (fieldsOf (formatR opc d a b)).d = d ∧ (fieldsOf (formatR opc d a b)).a = a ∧ (fieldsOf (formatR opc d a b)).b = b := by
  have h := fields_of_append opc d a b 0#12
  exact ⟨h.1, h.2.1, h.2.2.1⟩

/-- The fields that format C carries. -/
theorem fieldsOf_formatC (opc : BitVec 8) (d a b : BitVec 4) (w : Nat) (hw : w ≤ 127) :
    (fieldsOf (formatC opc d a b w)).d = d ∧ (fieldsOf (formatC opc d a b w)).a = a
      ∧ (fieldsOf (formatC opc d a b w)).b = b ∧ (fieldsOf (formatC opc d a b w)).w = w := by
  have hc : formatC opc d a b w = (opc ++ d ++ a ++ b ++ (0#5 ++ BitVec.ofNat 7 w : BitVec 12) : Cmd) := by
    apply BitVec.eq_of_getLsbD_eq
    intro i hi
    show BitVec.getLsbD (w := 8 + 4 + 4 + 4 + 5 + 7) (opc ++ d ++ a ++ b ++ 0#5 ++ BitVec.ofNat 7 w) i
      = BitVec.getLsbD (w := 8 + 4 + 4 + 4 + (5 + 7)) (opc ++ d ++ a ++ b ++ (0#5 ++ BitVec.ofNat 7 w)) i
    simp only [BitVec.getLsbD_append]
    by_cases h1 : i < 7
    · simp [h1, show i < 12 by omega]
    · by_cases h2 : i < 12
      · simp [h1, h2, show i - 7 < 5 by omega]
      · simp [h1, h2, show ¬ (i - 7 < 5) by omega, show i - 7 - 5 = i - 12 by omega]
  have h := fields_of_append opc d a b (0#5 ++ BitVec.ofNat 7 w)
  rw [← hc] at h
  refine ⟨h.1, h.2.1, h.2.2.1, ?_⟩
  have h7 : (formatC opc d a b w).extractLsb' 0 7 = BitVec.ofNat 7 w := by
    rw [h.2.2.2]
    apply BitVec.eq_of_getLsbD_eq
    intro i hi
    rw [BitVec.getLsbD_extractLsb', BitVec.getLsbD_append]
    simp [hi]
  show ((formatC opc d a b w).extractLsb' 0 7).toNat = w
  rw [h7, BitVec.toNat_ofNat]
  omega

/-- The fields that format XI carries. -/
theorem fieldsOf_formatXI (opc : BitVec 8) (d : BitVec 4) (imm : Int) (h0 : -524288 ≤ imm) (h1 : imm ≤ 524287) :
    (fieldsOf (formatXI opc d imm)).d = d ∧ (fieldsOf (formatXI opc d imm)).imm = imm := by
  have bit : ∀ i, (formatXI opc d imm).getLsbD i = if i < 20 then (BitVec.ofInt 20 imm).getLsbD i
      else if i < 24 then d.getLsbD (i - 20) else opc.getLsbD (i - 24) := by
    intro i
    show BitVec.getLsbD (w := 8 + 4 + 20) (opc ++ d ++ BitVec.ofInt 20 imm) i = _
    simp only [BitVec.getLsbD_append]
    by_cases h1 : i < 20
    · simp [h1]
    · by_cases h2 : i < 24
      · simp [h1, h2, show i - 20 < 4 by omega]
      · simp [h1, h2, show ¬ (i - 20 < 4) by omega, show i - 20 - 4 = i - 24 by omega]
  constructor
  · show (formatXI opc d imm).extractLsb' 20 4 = d
    apply BitVec.eq_of_getLsbD_eq
    intro i hi
    rw [BitVec.getLsbD_extractLsb', bit, if_neg (by omega), if_pos (by omega), show 20 + i - 20 = i by omega]
    simp [hi]
  · have h20 : (formatXI opc d imm).extractLsb' 0 20 = BitVec.ofInt 20 imm := by
      apply BitVec.eq_of_getLsbD_eq
      intro i hi
      rw [BitVec.getLsbD_extractLsb', bit, if_pos (by omega)]
      simp [hi]
    show ((formatXI opc d imm).extractLsb' 0 20).toInt = imm
    rw [h20]
    exact BitVec.toInt_ofInt_eq_self (by omega) (by norm_num; omega) (by norm_num; omega)

/-! The fixed bits of the formats. -/

theorem formatR_mask (opc : BitVec 8) (d a b : BitVec 4) (md ma mb : BitVec 4) (mlo : BitVec 12) :
    formatR opc d a b &&& (0xFF#8 ++ md ++ ma ++ mb ++ mlo : Cmd)
      = (opc ++ (d &&& md) ++ (a &&& ma) ++ (b &&& mb) ++ 0#12 : Cmd) := by
  show (opc ++ d ++ a ++ b ++ 0#12 : BitVec (8 + 4 + 4 + 4 + 12)) &&& (0xFF#8 ++ md ++ ma ++ mb ++ mlo) = _
  rw [BitVec.and_append, BitVec.and_append, BitVec.and_append, BitVec.and_append]
  have h1 : opc &&& 0xFF#8 = opc := BitVec.and_allOnes
  have h2 : 0#12 &&& mlo = 0#12 := BitVec.zero_and
  rw [h1, h2]

theorem formatC_mask (opc : BitVec 8) (d a b : BitVec 4) (w : Nat) (mw : BitVec 7) :
    formatC opc d a b w &&& (0xFF#8 ++ 0#4 ++ 0#4 ++ 0#4 ++ 0x1F#5 ++ mw : Cmd)
      = (opc ++ 0#4 ++ 0#4 ++ 0#4 ++ 0#5 ++ (BitVec.ofNat 7 w &&& mw) : Cmd) := by
  show (opc ++ d ++ a ++ b ++ 0#5 ++ BitVec.ofNat 7 w : BitVec (8 + 4 + 4 + 4 + 5 + 7))
    &&& (0xFF#8 ++ 0#4 ++ 0#4 ++ 0#4 ++ 0x1F#5 ++ mw) = _
  rw [BitVec.and_append, BitVec.and_append, BitVec.and_append, BitVec.and_append, BitVec.and_append]
  have h1 : opc &&& 0xFF#8 = opc := BitVec.and_allOnes
  have h2 : 0#5 &&& 0x1F#5 = 0#5 := BitVec.zero_and
  rw [h1, h2, BitVec.and_zero, BitVec.and_zero, BitVec.and_zero]

/-- Three register fields: the fixed bits are the opcode and bits 11..0. -/
theorem formatR_fixed_dab (opc : BitVec 8) (d a b : BitVec 4) : formatR opc d a b &&& 0xFF000FFF#32 = formatR opc 0#4 0#4 0#4 := by
  refine (formatR_mask opc d a b 0#4 0#4 0#4 0xFFF#12).trans ?_
  rw [BitVec.and_zero, BitVec.and_zero, BitVec.and_zero]
  rfl

/-- Fields D and A: bits 15..0 are fixed. -/
theorem formatR_fixed_da (opc : BitVec 8) (d a : BitVec 4) : formatR opc d a 0#4 &&& 0xFF00FFFF#32 = formatR opc 0#4 0#4 0#4 := by
  refine (formatR_mask opc d a 0#4 0#4 0#4 0xF#4 0xFFF#12).trans ?_
  rw [BitVec.and_zero, BitVec.and_zero, BitVec.zero_and]
  rfl

/-- Field D alone: bits 19..0 are fixed. -/
theorem formatR_fixed_d (opc : BitVec 8) (d : BitVec 4) : formatR opc d 0#4 0#4 &&& 0xFF0FFFFF#32 = formatR opc 0#4 0#4 0#4 := by
  refine (formatR_mask opc d 0#4 0#4 0#4 0xF#4 0xF#4 0xFFF#12).trans ?_
  rw [BitVec.and_zero, BitVec.zero_and]
  rfl

/-- A width field: bits 11..7 are fixed. -/
theorem formatC_fixed (opc : BitVec 8) (d a b : BitVec 4) (w : Nat) :
    formatC opc d a b w &&& 0xFF000F80#32 = formatC opc 0#4 0#4 0#4 0 := by
  refine (formatC_mask opc d a b w 0#7).trans ?_
  rw [BitVec.and_zero]
  rfl

/-- No width field: bits 11..0 are fixed. -/
theorem formatC_fixed_noWidth (opc : BitVec 8) (d a b : BitVec 4) :
    formatC opc d a b 0 &&& 0xFF000FFF#32 = formatC opc 0#4 0#4 0#4 0 := by
  refine (formatC_mask opc d a b 0 0x7F#7).trans ?_
  rw [show BitVec.ofNat 7 0 &&& 0x7F#7 = 0#7 from BitVec.zero_and]
  rfl

/-- The immediate format: the opcode alone is fixed. -/
theorem formatXI_mask (opc : BitVec 8) (d : BitVec 4) (imm : Int) :
    formatXI opc d imm &&& 0xFF000000#32 = (opc ++ 0#4 ++ 0#20 : Cmd) := by
  show (opc ++ d ++ BitVec.ofInt 20 imm : BitVec (8 + 4 + 20)) &&& (0xFF#8 ++ 0#4 ++ 0#20) = _
  rw [BitVec.and_append, BitVec.and_append]
  have h1 : opc &&& 0xFF#8 = opc := BitVec.and_allOnes
  rw [h1, BitVec.and_zero, BitVec.and_zero]

end Sys2Proof
end

