-- ==== Sys2Proof/Laws/Flags.lean ====
section
/-! SUPPORT. Every field of `STAT` after each of its updates. -/

namespace Sys2Proof.Machine

theorem statPack_bit (r : BitVec 26) (e f : Bool) (c : BitVec 4) (i : Nat) :
    (statPack r e f c).getLsbD i
      = if i < 4 then c.getLsbD i else if i = 4 then f else if i = 5 then e else r.getLsbD (i - 6) := by
  show BitVec.getLsbD (w := 26 + 1 + 1 + 4) (r ++ BitVec.ofBool e ++ BitVec.ofBool f ++ c) i = _
  rw [BitVec.getLsbD_append, BitVec.getLsbD_append, BitVec.getLsbD_append]
  by_cases h4 : i < 4
  · simp [h4]
  · by_cases h5 : i = 4
    · simp [h5]
    · by_cases h6 : i = 5
      · simp [h6]
      · have h1 : ¬ (i - 4 < 1) := by omega
        have h2 : ¬ (i - 4 - 1 < 1) := by omega
        have h3 : i - 4 - 1 - 1 = i - 6 := by omega
        simp [h4, h5, h6, h1, h2, h3]

@[simp] theorem statCode_pack (r : BitVec 26) (e f : Bool) (c : BitVec 4) : statCode (statPack r e f c) = c := by
  apply BitVec.eq_of_getLsbD_eq
  intro i hi
  simp [statCode, statPack_bit, hi]

@[simp] theorem statFaulted_pack (r : BitVec 26) (e f : Bool) (c : BitVec 4) : statFaulted (statPack r e f c) = f := by
  simp [statFaulted, statPack_bit, -BitVec.getLsbD_eq_getElem]

@[simp] theorem statErrSeen_pack (r : BitVec 26) (e f : Bool) (c : BitVec 4) : statErrSeen (statPack r e f c) = e := by
  simp [statErrSeen, statPack_bit, -BitVec.getLsbD_eq_getElem]

@[simp] theorem statReserved_pack (r : BitVec 26) (e f : Bool) (c : BitVec 4) : statReserved (statPack r e f c) = r := by
  apply BitVec.eq_of_getLsbD_eq
  intro i hi
  have h4 : ¬ (6 + i < 4) := by omega
  have h5 : ¬ (6 + i = 4) := by omega
  have h6 : ¬ (6 + i = 5) := by omega
  have h7 : 6 + i - 6 = i := by omega
  rw [statReserved, BitVec.getLsbD_extractLsb', statPack_bit, if_neg h4, if_neg h5, if_neg h6, h7]
  simp [hi]

@[simp] theorem statCode_complete (st : BitVec 32) : statCode (statComplete st) = Code.num .ok := statCode_pack ..
@[simp] theorem statFaulted_complete (st : BitVec 32) : statFaulted (statComplete st) = statFaulted st := statFaulted_pack ..
@[simp] theorem statErrSeen_complete (st : BitVec 32) : statErrSeen (statComplete st) = statErrSeen st := statErrSeen_pack ..
@[simp] theorem statReserved_complete (st : BitVec 32) : statReserved (statComplete st) = statReserved st := statReserved_pack ..

@[simp] theorem statCode_raise (c : Code) (st : BitVec 32) : statCode (statRaise c st) = c.num := statCode_pack ..
@[simp] theorem statFaulted_raise (c : Code) (st : BitVec 32) : statFaulted (statRaise c st) = true := statFaulted_pack ..
@[simp] theorem statErrSeen_raise (c : Code) (st : BitVec 32) : statErrSeen (statRaise c st) = true := statErrSeen_pack ..
@[simp] theorem statReserved_raise (c : Code) (st : BitVec 32) : statReserved (statRaise c st) = statReserved st :=
  statReserved_pack ..

@[simp] theorem statCode_ack (st : BitVec 32) : statCode (statAck st) = statCode st := statCode_pack ..
@[simp] theorem statFaulted_ack (st : BitVec 32) : statFaulted (statAck st) = false := statFaulted_pack ..
@[simp] theorem statErrSeen_ack (st : BitVec 32) : statErrSeen (statAck st) = statErrSeen st := statErrSeen_pack ..
@[simp] theorem statReserved_ack (st : BitVec 32) : statReserved (statAck st) = statReserved st := statReserved_pack ..

/-- A fault code is not 0 and is at most 8 (60_exceptions.md R230). -/
theorem Code.num_le (c : Code) : c.num ≤ 8 := by cases c <;> decide

theorem Code.num_eq_zero_iff (c : Code) : c.num = 0 ↔ c = .ok := by cases c <;> decide

end Sys2Proof.Machine
end

