-- ==== Sys2Proof/Laws/Memory.lean ====
section
/-! SUPPORT. The laws of the store: a read after a write, the canonical form, words, stream bits and fields (20_memory.md R50 to R57,
40_codec.md R101, R102). -/

namespace Sys2Proof.Machine

/-- The canonical form, cell by cell. -/
theorem Memory.wf_cons (k : Nat) (b : Byte) (rest : List Host.Cell) :
    Memory.wf ((k, b) :: rest) = true ↔
      b ≠ Memory.unlisted ∧ Memory.wf rest = true ∧ ∀ c ∈ rest, k < c.1 := by
  induction rest generalizing k b with
  | nil => simp [Memory.wf]
  | cons c rest ih =>
    obtain ⟨k', b'⟩ := c
    simp only [Memory.wf, Bool.and_eq_true, decide_eq_true_eq, bne_iff_ne, List.mem_cons, forall_eq_or_imp]
    constructor
    · rintro ⟨⟨hk, hb⟩, hw⟩
      exact ⟨hb, hw, hk, fun c hc => lt_trans hk (((ih k' b').1 hw).2.2 c hc)⟩
    · rintro ⟨hb, hw, hk, -⟩
      exact ⟨⟨hk, hb⟩, hw⟩

/-- A byte below every listed address reads as unlisted. -/
theorem Memory.readByte_below (m : List Host.Cell) (a : Nat) (h : ∀ c ∈ m, a < c.1) :
    Memory.readByte m a = Memory.unlisted := by
  induction m with
  | nil => rfl
  | cons c rest ih =>
    obtain ⟨k, b⟩ := c
    have hk : a < k := h (k, b) (by simp)
    have hne : k ≠ a := by omega
    simp only [Memory.readByte, if_neg hne]
    exact ih fun c hc => h c (by simp [hc])

/-- A byte reads as what was last written there, and every other byte as before. -/
theorem Memory.readByte_writeByte (m : List Host.Cell) (hm : Memory.wf m = true) (a : Nat) (b : Byte) (q : Nat) :
    Memory.readByte (Memory.writeByte m a b) q = if q = a then b else Memory.readByte m q := by
  induction m with
  | nil =>
    by_cases hb : b = Memory.unlisted
    · simp [Memory.writeByte, Memory.readByte, hb]
    · by_cases hq : q = a
      · simp [Memory.writeByte, Memory.readByte, hb, hq]
      · simp [Memory.writeByte, Memory.readByte, hb, hq, Ne.symm hq]
  | cons c rest ih =>
    obtain ⟨k, v⟩ := c
    obtain ⟨hv, hr, hlt⟩ := (Memory.wf_cons k v rest).1 hm
    have below : ∀ x, x ≤ k → Memory.readByte rest x = Memory.unlisted := fun x hx =>
      Memory.readByte_below rest x fun c hc => lt_of_le_of_lt hx (hlt c hc)
    by_cases h1 : a < k
    · by_cases hq : q = a
      · subst hq
        by_cases hb : b = Memory.unlisted
        · have hne : k ≠ q := by omega
          simp [Memory.writeByte, Memory.readByte, h1, hb, below q (le_of_lt h1), hne]
        · simp [Memory.writeByte, Memory.readByte, h1, hb]
      · by_cases hb : b = Memory.unlisted <;> simp [Memory.writeByte, Memory.readByte, h1, hb, hq, Ne.symm hq]
    · by_cases h2 : a = k
      · subst h2
        by_cases hq : q = a
        · subst hq
          by_cases hb : b = Memory.unlisted
          · simp [Memory.writeByte, hb, below q le_rfl]
          · simp [Memory.writeByte, Memory.readByte, hb]
        · by_cases hb : b = Memory.unlisted <;> simp [Memory.writeByte, Memory.readByte, hb, hq, Ne.symm hq]
      · have hw : Memory.writeByte ((k, v) :: rest) a b = (k, v) :: Memory.writeByte rest a b := by
          simp [Memory.writeByte, h1, h2]
        rw [hw]
        by_cases hq : q = a
        · subst hq
          have hne : k ≠ q := by omega
          simp [Memory.readByte, ih hr, hne]
        · by_cases hk : k = q
          · simp [Memory.readByte, hk, hq]
          · simp [Memory.readByte, ih hr, hk, hq]

/-- What a write can list: the written address, and what was listed. -/
theorem Memory.mem_writeByte (m : List Host.Cell) (a : Nat) (b : Byte) (c : Host.Cell)
    (h : c ∈ Memory.writeByte m a b) : c = (a, b) ∧ b ≠ Memory.unlisted ∨ c ∈ m := by
  induction m with
  | nil =>
    by_cases hb : b = Memory.unlisted
    · simp [Memory.writeByte, hb] at h
    · left
      simpa [Memory.writeByte, hb] using h
  | cons d rest ih =>
    obtain ⟨k, v⟩ := d
    simp only [Memory.writeByte] at h
    split at h
    · split at h
      · exact .inr h
      · next hb => rcases List.mem_cons.1 h with h | h <;> simp_all
    · split at h
      · split at h
        · exact .inr (by simp [h])
        · next hb => rcases List.mem_cons.1 h with h | h <;> simp_all
      · rcases List.mem_cons.1 h with h | h
        · exact .inr (by simp [h])
        · rcases ih h with h | h
          · exact .inl h
          · exact .inr (by simp [h])

/-- A write keeps the canonical form. -/
theorem Memory.wf_writeByte (m : List Host.Cell) (hm : Memory.wf m = true) (a : Nat) (b : Byte) :
    Memory.wf (Memory.writeByte m a b) = true := by
  induction m with
  | nil =>
    by_cases hb : b = Memory.unlisted
    · simp [Memory.writeByte, hb, Memory.wf]
    · simp [Memory.writeByte, hb, Memory.wf]
  | cons c rest ih =>
    obtain ⟨k, v⟩ := c
    obtain ⟨hv, hr, hlt⟩ := (Memory.wf_cons k v rest).1 hm
    simp only [Memory.writeByte]
    split
    · next h1 =>
      split
      · exact hm
      · next hb =>
        refine (Memory.wf_cons a b _).2 ⟨hb, hm, ?_⟩
        intro c hc
        rcases List.mem_cons.1 hc with rfl | hc
        · exact h1
        · exact lt_trans h1 (hlt c hc)
    · split
      · next h2 =>
        split
        · exact hr
        · next hb => exact (Memory.wf_cons a b _).2 ⟨hb, hr, by subst h2; exact hlt⟩
      · next h1 h2 =>
        refine (Memory.wf_cons k v _).2 ⟨hv, ih hr, ?_⟩
        intro c hc
        rcases Memory.mem_writeByte rest a b c hc with ⟨rfl, -⟩ | hc
        · exact lt_of_le_of_ne (Nat.le_of_not_lt h1) (Ne.symm h2)
        · exact hlt c hc

/-- A write below the bound keeps every listed address below it. -/
theorem Memory.below_writeByte (m : List Host.Cell) (bound a : Nat) (b : Byte) (hm : Memory.below m bound = true)
    (ha : a < bound) : Memory.below (Memory.writeByte m a b) bound = true := by
  simp only [Memory.below, List.all_eq_true, decide_eq_true_eq] at hm ⊢
  intro c hc
  rcases Memory.mem_writeByte m a b c hc with ⟨rfl, -⟩ | hc
  · exact ha
  · exact hm c hc

/-- Two canonical stores that read the same everywhere are the same list. -/
theorem Memory.ext (m m' : List Host.Cell) (hm : Memory.wf m = true) (hm' : Memory.wf m' = true)
    (h : ∀ a, Memory.readByte m a = Memory.readByte m' a) : m = m' := by
  induction m generalizing m' with
  | nil =>
    cases m' with
    | nil => rfl
    | cons c rest =>
      obtain ⟨k, v⟩ := c
      have := h k
      simp only [Memory.readByte, if_true] at this
      exact absurd this.symm ((Memory.wf_cons k v rest).1 hm').1
  | cons c rest ih =>
    obtain ⟨k, v⟩ := c
    obtain ⟨hv, hr, hlt⟩ := (Memory.wf_cons k v rest).1 hm
    cases m' with
    | nil =>
      have := h k
      simp only [Memory.readByte, if_true] at this
      exact absurd this hv
    | cons c' rest' =>
      obtain ⟨k', v'⟩ := c'
      obtain ⟨hv', hr', hlt'⟩ := (Memory.wf_cons k' v' rest').1 hm'
      have hk : k = k' := by
        rcases lt_trichotomy k k' with hk | hk | hk
        · have := h k
          rw [Memory.readByte_below ((k', v') :: rest') k (by
            intro c hc
            rcases List.mem_cons.1 hc with rfl | hc
            · exact hk
            · exact lt_trans hk (hlt' c hc))] at this
          simp only [Memory.readByte, if_true] at this
          exact absurd this hv
        · exact hk
        · have := h k'
          rw [Memory.readByte_below ((k, v) :: rest) k' (by
            intro c hc
            rcases List.mem_cons.1 hc with rfl | hc
            · exact hk
            · exact lt_trans hk (hlt c hc))] at this
          simp only [Memory.readByte, if_true] at this
          exact absurd this.symm hv'
      subst hk
      have hvv : v = v' := by
        have := h k
        simpa [Memory.readByte] using this
      subst hvv
      rw [ih rest' hr hr' ?_]
      intro a
      by_cases hka : k = a
      · subst hka
        rw [Memory.readByte_below rest k hlt, Memory.readByte_below rest' k hlt']
      · have := h a
        simpa [Memory.readByte, hka] using this

/-! Words. -/

/-- Bit `i` of the word at `w` is stream bit `64 w + i` (20_memory.md R50). -/
theorem Memory.readWord_bit (m : List Host.Cell) (w i : Nat) (hi : i < 64) :
    (Memory.readWord m w).getLsbD i = Memory.streamBit m (64 * w + i) := by
  have hd : (64 * w + i) / 8 = 8 * w + i / 8 := by omega
  have hm : (64 * w + i) % 8 = i % 8 := by omega
  rw [Memory.streamBit, hd, hm]
  show BitVec.getLsbD (w := 8 + 8 + 8 + 8 + 8 + 8 + 8 + 8) (Memory.readByte m (8 * w + 7) ++ Memory.readByte m (8 * w + 6)
    ++ Memory.readByte m (8 * w + 5) ++ Memory.readByte m (8 * w + 4) ++ Memory.readByte m (8 * w + 3)
    ++ Memory.readByte m (8 * w + 2) ++ Memory.readByte m (8 * w + 1) ++ Memory.readByte m (8 * w)) i = _
  simp only [BitVec.getLsbD_append]
  have : i / 8 = 0 ∨ i / 8 = 1 ∨ i / 8 = 2 ∨ i / 8 = 3 ∨ i / 8 = 4 ∨ i / 8 = 5 ∨ i / 8 = 6 ∨ i / 8 = 7 := by omega
  rcases this with h | h | h | h | h | h | h | h <;> rw [h] <;>
    (repeat first | rw [if_pos (by omega)] | rw [if_neg (by omega)]) <;> congr 1 <;> omega

/-- The bytes of `writeBytes`: the `k` bytes from `a` on are the low bytes of `v`. -/
theorem Memory.writeBytes_spec (m : List Host.Cell) (hm : Memory.wf m = true) (a : Nat) (v : Word) (k : Nat) :
    Memory.wf (Memory.writeBytes m a v k) = true ∧
      ∀ q, Memory.readByte (Memory.writeBytes m a v k) q =
        if a ≤ q ∧ q < a + k then v.extractLsb' (8 * (q - a)) 8 else Memory.readByte m q := by
  induction k with
  | zero =>
    refine ⟨hm, fun q => ?_⟩
    rw [if_neg (by omega)]
    rfl
  | succ k ih =>
    refine ⟨Memory.wf_writeByte _ ih.1 _ _, fun q => ?_⟩
    rw [Memory.writeBytes, Memory.readByte_writeByte _ ih.1, ih.2 q]
    by_cases h : q = a + k
    · subst h
      rw [if_pos rfl, if_pos (by omega), Nat.add_sub_cancel_left]
    · rw [if_neg h]
      by_cases h2 : a ≤ q ∧ q < a + k
      · rw [if_pos h2, if_pos (by omega)]
      · rw [if_neg h2, if_neg (by omega)]

/-- A word write changes the eight bytes of its word alone. -/
theorem Memory.readByte_writeWord (m : List Host.Cell) (hm : Memory.wf m = true) (w : Nat) (v : Word) (q : Nat) :
    Memory.readByte (Memory.writeWord m w v) q =
      if q / 8 = w then v.extractLsb' (8 * (q % 8)) 8 else Memory.readByte m q := by
  rw [Memory.writeWord, (Memory.writeBytes_spec m hm _ v 8).2 q]
  by_cases h : q / 8 = w
  · rw [if_pos h, if_pos (by omega), show q - 8 * w = q % 8 by omega]
  · rw [if_neg h, if_neg (by omega)]

/-- A word write keeps the canonical form. -/
theorem Memory.wf_writeWord (m : List Host.Cell) (hm : Memory.wf m = true) (w : Nat) (v : Word) :
    Memory.wf (Memory.writeWord m w v) = true := (Memory.writeBytes_spec m hm _ v 8).1

/-- A word write inside the store keeps every cell inside it. -/
theorem Memory.below_writeWord (m : List Host.Cell) (n w : Nat) (v : Word) (hm : Memory.below m (8 * n) = true) (hw : w < n) :
    Memory.below (Memory.writeWord m w v) (8 * n) = true := by
  have : ∀ k, k ≤ 8 → Memory.below (Memory.writeBytes m (8 * w) v k) (8 * n) = true := by
    intro k
    induction k with
    | zero => exact fun _ => hm
    | succ k ih => exact fun hk => Memory.below_writeByte _ _ _ _ (ih (by omega)) (by omega)
  exact this 8 le_rfl

/-- The stream bits after a word write. -/
theorem Memory.streamBit_writeWord (m : List Host.Cell) (hm : Memory.wf m = true) (w : Nat) (v : Word) (p : Nat) :
    Memory.streamBit (Memory.writeWord m w v) p =
      if p / 64 = w then v.getLsbD (p % 64) else Memory.streamBit m p := by
  rw [Memory.streamBit, Memory.readByte_writeWord m hm, show p / 8 / 8 = p / 64 by omega]
  by_cases h : p / 64 = w
  · rw [if_pos h, if_pos h, BitVec.getLsbD_extractLsb', show 8 * (p / 8 % 8) + p % 8 = p % 64 by omega]
    simp [show p % 8 < 8 by omega]
  · rw [if_neg h, if_neg h, Memory.streamBit]

/-- A word reads as what was last written to it. -/
theorem Memory.readWord_writeWord (m : List Host.Cell) (hm : Memory.wf m = true) (w : Nat) (v : Word) (q : Nat) :
    Memory.readWord (Memory.writeWord m w v) q = if q = w then v else Memory.readWord m q := by
  apply BitVec.eq_of_getLsbD_eq
  intro i hi
  rw [Memory.readWord_bit _ _ _ hi, Memory.streamBit_writeWord m hm, show (64 * q + i) / 64 = q by omega,
    show (64 * q + i) % 64 = i by omega]
  by_cases h : q = w
  · rw [if_pos h, if_pos h]
  · rw [if_neg h, if_neg h, Memory.readWord_bit _ _ _ hi]

/-! Masks and fields. -/

/-- The bits of `mask(w)` (00_scope.md R12). -/
theorem mask_bit (w i : Nat) (hi : i < 64) : (mask w).getLsbD i = decide (i < w) := by
  rw [mask, BitVec.getLsbD_ofNat, Nat.testBit_two_pow_sub_one]
  simp [hi]

/-- Bit `i` of a field that lies in the stream is stream bit `64 idx + off + i`, and the bits above its width are 0
(20_memory.md R50, 40_codec.md R101). -/
theorem Memory.readField_bit (m : List Host.Cell) (idx off w i : Nat) (ho : off ≤ 63) (hi : i < 64) :
    (Memory.readField m idx off w).getLsbD i
      = (decide (i < w) && Memory.streamBit m (64 * idx + off + i)) := by
  unfold Memory.readField
  by_cases h : off + w ≤ 64
  · simp only [if_pos h, BitVec.getLsbD_and, BitVec.getLsbD_ushiftRight, mask_bit _ _ hi]
    by_cases hiw : i < w
    · rw [Memory.readWord_bit _ _ _ (by omega), Nat.add_assoc]
      simp [hiw]
    · simp [hiw]
  · simp only [if_neg h, BitVec.getLsbD_or, BitVec.getLsbD_ushiftRight, BitVec.getLsbD_shiftLeft, BitVec.getLsbD_and]
    by_cases h1 : i < 64 - off
    · rw [Memory.readWord_bit m idx _ (by omega), Nat.add_assoc]
      simp [h1, show i < w by omega]
    · have hz : (Memory.readWord m idx).getLsbD (off + i) = false := BitVec.getLsbD_of_ge _ _ (by omega)
      rw [hz, Memory.readWord_bit m (idx + 1) _ (by omega), mask_bit _ _ (by omega),
        show 64 * (idx + 1) + (i - (64 - off)) = 64 * idx + off + i by omega]
      by_cases hiw : i < w
      · simp [hi, h1, hiw, show i - (64 - off) < w - (64 - off) by omega]
      · simp [hiw, show ¬ (i - (64 - off) < w - (64 - off)) by omega]

/-- A field write keeps the canonical form. -/
theorem Memory.wf_writeField (m : List Host.Cell) (hm : Memory.wf m = true) (idx off w : Nat) (v : Word) :
    Memory.wf (Memory.writeField m idx off w v) = true := by
  unfold Memory.writeField
  by_cases h : off + w ≤ 64
  · simp only [if_pos h]
    exact Memory.wf_writeWord m hm _ _
  · simp only [if_neg h]
    exact Memory.wf_writeWord _ (Memory.wf_writeWord m hm _ _) _ _

/-- A field write inside the store keeps every cell inside it. -/
theorem Memory.below_writeField (m : List Host.Cell) (n idx off w : Nat) (v : Word) (hm : Memory.below m (8 * n) = true)
    (h0 : idx < n) (h1 : 64 < off + w → idx + 1 < n) : Memory.below (Memory.writeField m idx off w v) (8 * n) = true := by
  unfold Memory.writeField
  by_cases h : off + w ≤ 64
  · simp only [if_pos h]
    exact Memory.below_writeWord m n _ _ hm h0
  · simp only [if_neg h]
    exact Memory.below_writeWord _ n _ _ (Memory.below_writeWord m n _ _ hm h0) (h1 (by omega))

/-- A field write leaves every byte of the words it does not touch (20_memory.md R54, R56). -/
theorem Memory.readByte_writeField (m : List Host.Cell) (hm : Memory.wf m = true) (idx off w : Nat) (v : Word) (a : Nat)
    (h0 : a / 8 ≠ idx) (h1 : 64 < off + w → a / 8 ≠ idx + 1) :
    Memory.readByte (Memory.writeField m idx off w v) a = Memory.readByte m a := by
  unfold Memory.writeField
  by_cases h : off + w ≤ 64
  · simp only [if_pos h]
    rw [Memory.readByte_writeWord m hm, if_neg h0]
  · simp only [if_neg h]
    rw [Memory.readByte_writeWord _ (Memory.wf_writeWord m hm _ _), if_neg (h1 (by omega)), Memory.readByte_writeWord m hm, if_neg h0]

/-- The stream bits after a field write: inside the field the bits of the data, elsewhere as before (20_memory.md R50, R56). -/
theorem Memory.streamBit_writeField (m : List Host.Cell) (hm : Memory.wf m = true) (idx off w : Nat) (v : Word) (p : Nat)
    (hw : w ≤ 64) (ho : off ≤ 63) :
    Memory.streamBit (Memory.writeField m idx off w v) p =
      if 64 * idx + off ≤ p ∧ p < 64 * idx + off + w then v.getLsbD (p - (64 * idx + off)) else Memory.streamBit m p := by
  unfold Memory.writeField
  have hb : p % 64 < 64 := Nat.mod_lt _ (by omega)
  by_cases h : off + w ≤ 64
  · simp only [if_pos h]
    rw [Memory.streamBit_writeWord m hm]
    by_cases hp : p / 64 = idx
    · rw [if_pos hp]
      simp only [BitVec.getLsbD_or, BitVec.getLsbD_and, BitVec.getLsbD_not, BitVec.getLsbD_shiftLeft,
        Memory.readWord_bit m idx _ hb, show 64 * idx + p % 64 = p by omega]
      by_cases h1 : p % 64 < off
      · rw [if_neg (by omega)]
        simp [h1, hb]
      · rw [mask_bit _ _ (by omega)]
        by_cases h2 : p % 64 < off + w
        · rw [if_pos (by omega), show p - (64 * idx + off) = p % 64 - off by omega]
          simp [h1, hb, show p % 64 - off < w by omega]
        · rw [if_neg (by omega)]
          simp [h1, hb, show ¬ (p % 64 - off < w) by omega]
    · rw [if_neg hp, if_neg (by omega)]
  · simp only [if_neg h]
    rw [Memory.streamBit_writeWord _ (Memory.wf_writeWord m hm _ _), Memory.streamBit_writeWord m hm]
    by_cases hp1 : p / 64 = idx + 1
    · rw [if_pos hp1]
      simp only [BitVec.getLsbD_or, BitVec.getLsbD_and, BitVec.getLsbD_not, BitVec.getLsbD_ushiftRight,
        Memory.readWord_bit m (idx + 1) _ hb, show 64 * (idx + 1) + p % 64 = p by omega, mask_bit _ _ hb]
      by_cases h2 : p % 64 < w - (64 - off)
      · rw [if_pos (by omega), mask_bit _ _ (by omega), show p - (64 * idx + off) = 64 - off + p % 64 by omega]
        simp [h2, hb, show 64 - off + p % 64 < w by omega]
      · rw [if_neg (by omega)]
        by_cases h3 : 64 - off + p % 64 < 64
        · rw [mask_bit _ _ h3]
          simp [h2, hb, show ¬ (64 - off + p % 64 < w) by omega]
        · rw [BitVec.getLsbD_of_ge v _ (by omega)]
          simp [h2, hb]
    · rw [if_neg hp1]
      by_cases hp : p / 64 = idx
      · rw [if_pos hp]
        simp only [BitVec.getLsbD_or, BitVec.getLsbD_and, BitVec.getLsbD_shiftLeft,
          Memory.readWord_bit m idx _ hb, show 64 * idx + p % 64 = p by omega, mask_bit _ _ hb]
        by_cases h1 : p % 64 < off
        · rw [if_neg (by omega)]
          simp [h1]
        · rw [if_pos (by omega), mask_bit _ _ (by omega), mask_bit _ _ (by omega),
            show p - (64 * idx + off) = p % 64 - off by omega]
          simp [h1, hb, show p % 64 - off < w by omega, show p % 64 - off < 64 - off by omega]
      · rw [if_neg hp, if_neg (by omega)]

end Sys2Proof.Machine
end

