-- ==== Sys2Proof/Laws/Operands.lean ====
section
/-! SUPPORT. What the pattern and value functions compute (00_scope.md R12, 10_state.md R24). -/

namespace Sys2Proof.Machine

/-- The width of a legal instance (00_scope.md R5). -/
theorem wf_width {c : Config} (h : c.wf = true) : 1 ≤ c.n ∧ c.n ≤ 64 := by
  simp [Config.wf] at h
  omega

/-- `norm(z)` as a number. -/
theorem norm_toNat (c : Config) (hn : c.n ≤ 64) (z : Int) : ((normOf c z).toNat : Int) = z % 2 ^ c.n := by
  have h0 : (0 : Int) < 2 ^ c.n := by positivity
  have h1 : (2 : Int) ^ c.n ≤ 2 ^ 64 := pow_le_pow_right₀ (by norm_num) hn
  have h2 := Int.emod_nonneg z (ne_of_gt h0)
  have h3 := Int.emod_lt_of_pos z h0
  rw [normOf, BitVec.toNat_ofInt]
  rw [Int.toNat_of_nonneg (Int.emod_nonneg _ (by norm_num))]
  exact Int.emod_eq_of_lt h2 (by push_cast; omega)

/-- `norm` writes an N-bit pattern (10_state.md R24). -/
theorem norm_lt (c : Config) (hn : c.n ≤ 64) (z : Int) : (normOf c z).toNat < 2 ^ c.n := by
  have h := norm_toNat c hn z
  have h3 := Int.emod_lt_of_pos z (show (0 : Int) < 2 ^ c.n by positivity)
  have : ((normOf c z).toNat : Int) < ((2 ^ c.n : Nat) : Int) := by push_cast; omega
  exact_mod_cast this

/-- Half of the pattern range. -/
theorem two_pow_half (n : Nat) (h : 1 ≤ n) : (2 : Int) ^ n = 2 * 2 ^ (n - 1) := by
  obtain ⟨k, rfl⟩ : ∃ k, n = k + 1 := ⟨n - 1, by omega⟩
  rw [Nat.add_sub_cancel, pow_succ, mul_comm]

/-- The value of an N-bit pattern is in `[MINV, MAXV]` (10_state.md R24). -/
theorem val_range (c : Config) (hn : 1 ≤ c.n) (p : Word) (hp : p.toNat < 2 ^ c.n) :
    minv c ≤ val c p ∧ val c p ≤ maxv c := by
  have h2 := two_pow_half c.n hn
  have hp' : (p.toNat : Int) < 2 ^ c.n := by exact_mod_cast hp
  have h0 : (0 : Int) ≤ p.toNat := by positivity
  have hpos : (0 : Int) < 2 ^ (c.n - 1) := by positivity
  unfold minv maxv val
  by_cases hs : c.signed = true
  · simp only [hs, if_true, true_and]
    by_cases hh : 2 ^ (c.n - 1) ≤ p.toNat
    · have : (2 : Int) ^ (c.n - 1) ≤ p.toNat := by exact_mod_cast hh
      rw [if_pos hh]
      omega
    · have : (p.toNat : Int) < 2 ^ (c.n - 1) := by exact_mod_cast Nat.lt_of_not_le hh
      rw [if_neg hh]
      omega
  · simp [hs]
    omega

/-- The value of a pattern differs from the pattern by a multiple of `2^N`. -/
theorem val_modEq (c : Config) (p : Word) : (2 ^ c.n : Int) ∣ val c p - p.toNat := by
  unfold val
  split
  · exact ⟨-1, by ring⟩
  · exact ⟨0, by ring⟩

/-- `val(norm(z))` is congruent to `z` modulo `2^N` (00_scope.md R12). -/
theorem val_norm_modEq (c : Config) (hn : c.n ≤ 64) (z : Int) : (2 ^ c.n : Int) ∣ val c (normOf c z) - z := by
  have h1 := val_modEq c (normOf c z)
  have h2 : (2 ^ c.n : Int) ∣ ((normOf c z).toNat : Int) - z := by
    rw [norm_toNat c hn z]
    exact ⟨-(z / 2 ^ c.n), by have := Int.emod_add_mul_ediv z (2 ^ c.n); linarith⟩
  have := dvd_add h1 h2
  rwa [sub_add_sub_cancel] at this

/-- A canonical value is unique: two values in `[MINV, MAXV]` that differ by a multiple of `2^N` are equal. -/
theorem canonical_unique (c : Config) (hn : 1 ≤ c.n) (a b : Int) (ha : minv c ≤ a ∧ a ≤ maxv c) (hb : minv c ≤ b ∧ b ≤ maxv c)
    (h : (2 ^ c.n : Int) ∣ a - b) : a = b := by
  have h2 := two_pow_half c.n hn
  have hlt : |a - b| < 2 ^ c.n := by
    rw [abs_lt]
    unfold minv maxv at ha hb
    split at ha <;> split at hb <;> first | (exfalso; contradiction) | constructor <;> omega
  have := Int.eq_zero_of_abs_lt_dvd h hlt
  omega

/-- A value in range is held unchanged. -/
theorem val_norm_of_range (c : Config) (hw : c.wf = true) (z : Int) (h : minv c ≤ z ∧ z ≤ maxv c) : val c (normOf c z) = z :=
  canonical_unique c (wf_width hw).1 _ _ (val_range c (wf_width hw).1 _ (norm_lt c (wf_width hw).2 z)) h
    (val_norm_modEq c (wf_width hw).2 z)

/-- An N-bit pattern is the pattern of its value. -/
theorem norm_val (c : Config) (hn : c.n ≤ 64) (p : Word) (hp : p.toNat < 2 ^ c.n) : normOf c (val c p) = p := by
  have h : ((normOf c (val c p)).toNat : Int) = p.toNat := by
    have hp' : (p.toNat : Int) < 2 ^ c.n := by exact_mod_cast hp
    rw [norm_toNat c hn, ← Int.modEq_iff_dvd.2 (val_modEq c p)]
    exact Int.emod_eq_of_lt (by positivity) hp'
  exact BitVec.eq_of_toNat_eq (by exact_mod_cast h)

/-- `sint64` is the two's-complement value (00_scope.md R12). -/
theorem sint64_eq_toInt (p : Word) : sint64 p = p.toInt := by
  rw [sint64, BitVec.toInt_eq_toNat_cond]
  split <;> split <;> omega

/-- Exponentiation by squaring computes the power modulo `m`. -/
theorem powMod_eq (m fuel a e : Nat) (h : e < 2 ^ fuel) : powMod m fuel a e = a ^ e % m := by
  induction fuel generalizing a e with
  | zero =>
    obtain rfl : e = 0 := by simpa using h
    rfl
  | succ fuel ih =>
    unfold powMod
    by_cases he : e = 0
    · simp [he]
    · rw [if_neg he]
      have hlt : e / 2 < 2 ^ fuel := by
        rw [pow_succ] at h
        omega
      have hsq : (a * a % m) ^ (e / 2) % m = a ^ (2 * (e / 2)) % m := by
        rw [← Nat.pow_mod, pow_mul, pow_two]
      simp only [ih _ _ hlt, hsq]
      by_cases hodd : e % 2 = 1
      · rw [if_pos hodd, Nat.mul_mod_mod, ← pow_succ', show 2 * (e / 2) + 1 = e by omega]
      · rw [if_neg hodd, show 2 * (e / 2) = e by omega]

/-- `powNorm` is `norm` of the exact power (42_arith.md R161). -/
theorem powNorm_eq (c : Config) (a : Int) (b : Nat) (hb : b < 2 ^ 64) : powNorm c a b = normOf c (a ^ b) := by
  have h0 : (0 : Int) < 2 ^ c.n := by positivity
  rw [powNorm, powMod_eq _ _ _ _ hb, normOf]
  have hcast : (((a % 2 ^ c.n).toNat ^ b % 2 ^ c.n : Nat) : Int) = a ^ b % 2 ^ c.n := by
    push_cast
    rw [Int.toNat_of_nonneg (Int.emod_nonneg a (ne_of_gt h0)), ((Int.mod_modEq a (2 ^ c.n)).pow b)]
  rw [← hcast, BitVec.ofInt_natCast]

/-- The exact lcm is the least common multiple (42_arith.md R160). -/
theorem exactLcm_eq (a b : Int) : exactLcm a b = Int.lcm a b := by
  unfold exactLcm
  split
  · next h => rcases h with rfl | rfl <;> simp
  · rw [Int.lcm_def, Nat.lcm, Int.natAbs_mul, Int.gcd_def]

end Sys2Proof.Machine
end

