-- ==== Sys2Proof/Laws/State.lean ====
section
/-! SUPPORT. One lemma per field per update of State, and the register read after each update. -/

namespace Sys2Proof.Machine

@[simp] theorem State.cfg_setX (s : State) (r : XReg) (p : Word) : (s.setX r p).cfg = s.cfg := rfl
@[simp] theorem State.v_setX (s : State) (r : XReg) (p : Word) : (s.setX r p).v = s.v := rfl
@[simp] theorem State.csi_setX (s : State) (r : XReg) (p : Word) : (s.setX r p).csi = s.csi := rfl
@[simp] theorem State.stat_setX (s : State) (r : XReg) (p : Word) : (s.setX r p).stat = s.stat := rfl
@[simp] theorem State.faultCmd_setX (s : State) (r : XReg) (p : Word) : (s.setX r p).faultCmd = s.faultCmd := rfl
@[simp] theorem State.mem_setX (s : State) (r : XReg) (p : Word) : (s.setX r p).mem = s.mem := rfl
@[simp] theorem State.draws_setX (s : State) (r : XReg) (p : Word) : (s.setX r p).draws = s.draws := rfl
@[simp] theorem State.inbox_setX (s : State) (r : XReg) (p : Word) : (s.setX r p).inbox = s.inbox := rfl
@[simp] theorem State.response_setX (s : State) (r : XReg) (p : Word) : (s.setX r p).response = s.response := rfl
@[simp] theorem State.getV_setX (s : State) (r : XReg) (p : Word) (q : VReg) : (s.setX r p).getV q = s.getV q := rfl
@[simp] theorem State.readByte_setX (s : State) (r : XReg) (p : Word) (q : Nat) : (s.setX r p).readByte q = s.readByte q := rfl

@[simp] theorem State.cfg_setV (s : State) (r : VReg) (p : Word) : (s.setV r p).cfg = s.cfg := rfl
@[simp] theorem State.x_setV (s : State) (r : VReg) (p : Word) : (s.setV r p).x = s.x := rfl
@[simp] theorem State.csi_setV (s : State) (r : VReg) (p : Word) : (s.setV r p).csi = s.csi := rfl
@[simp] theorem State.stat_setV (s : State) (r : VReg) (p : Word) : (s.setV r p).stat = s.stat := rfl
@[simp] theorem State.faultCmd_setV (s : State) (r : VReg) (p : Word) : (s.setV r p).faultCmd = s.faultCmd := rfl
@[simp] theorem State.mem_setV (s : State) (r : VReg) (p : Word) : (s.setV r p).mem = s.mem := rfl
@[simp] theorem State.draws_setV (s : State) (r : VReg) (p : Word) : (s.setV r p).draws = s.draws := rfl
@[simp] theorem State.inbox_setV (s : State) (r : VReg) (p : Word) : (s.setV r p).inbox = s.inbox := rfl
@[simp] theorem State.response_setV (s : State) (r : VReg) (p : Word) : (s.setV r p).response = s.response := rfl
@[simp] theorem State.getX_setV (s : State) (r : VReg) (p : Word) (q : XReg) : (s.setV r p).getX q = s.getX q := rfl
@[simp] theorem State.readByte_setV (s : State) (r : VReg) (p : Word) (q : Nat) : (s.setV r p).readByte q = s.readByte q := rfl

@[simp] theorem State.cfg_setMem (s : State) (m : List Host.Cell) : (s.setMem m).cfg = s.cfg := rfl
@[simp] theorem State.x_setMem (s : State) (m : List Host.Cell) : (s.setMem m).x = s.x := rfl
@[simp] theorem State.v_setMem (s : State) (m : List Host.Cell) : (s.setMem m).v = s.v := rfl
@[simp] theorem State.csi_setMem (s : State) (m : List Host.Cell) : (s.setMem m).csi = s.csi := rfl
@[simp] theorem State.stat_setMem (s : State) (m : List Host.Cell) : (s.setMem m).stat = s.stat := rfl
@[simp] theorem State.faultCmd_setMem (s : State) (m : List Host.Cell) : (s.setMem m).faultCmd = s.faultCmd := rfl
@[simp] theorem State.mem_setMem (s : State) (m : List Host.Cell) : (s.setMem m).mem = m := rfl
@[simp] theorem State.draws_setMem (s : State) (m : List Host.Cell) : (s.setMem m).draws = s.draws := rfl
@[simp] theorem State.inbox_setMem (s : State) (m : List Host.Cell) : (s.setMem m).inbox = s.inbox := rfl
@[simp] theorem State.response_setMem (s : State) (m : List Host.Cell) : (s.setMem m).response = s.response := rfl
@[simp] theorem State.getX_setMem (s : State) (m : List Host.Cell) (q : XReg) : (s.setMem m).getX q = s.getX q := rfl
@[simp] theorem State.getV_setMem (s : State) (m : List Host.Cell) (q : VReg) : (s.setMem m).getV q = s.getV q := rfl

@[simp] theorem State.cfg_complete (s : State) : s.complete.cfg = s.cfg := rfl
@[simp] theorem State.x_complete (s : State) : s.complete.x = s.x := rfl
@[simp] theorem State.v_complete (s : State) : s.complete.v = s.v := rfl
@[simp] theorem State.csi_complete (s : State) : s.complete.csi = s.csi + 1 := rfl
@[simp] theorem State.stat_complete (s : State) : s.complete.stat = statComplete s.stat := rfl
@[simp] theorem State.faultCmd_complete (s : State) : s.complete.faultCmd = s.faultCmd := rfl
@[simp] theorem State.mem_complete (s : State) : s.complete.mem = s.mem := rfl
@[simp] theorem State.draws_complete (s : State) : s.complete.draws = s.draws := rfl
@[simp] theorem State.inbox_complete (s : State) : s.complete.inbox = s.inbox := rfl
@[simp] theorem State.response_complete (s : State) : s.complete.response = s.response := rfl
@[simp] theorem State.getX_complete (s : State) (q : XReg) : s.complete.getX q = s.getX q := rfl
@[simp] theorem State.getV_complete (s : State) (q : VReg) : s.complete.getV q = s.getV q := rfl
@[simp] theorem State.readByte_complete (s : State) (q : Nat) : s.complete.readByte q = s.readByte q := rfl

@[simp] theorem State.cfg_raise (s : State) (c : Code) (w : Cmd) : (s.raise c w).cfg = s.cfg := rfl
@[simp] theorem State.x_raise (s : State) (c : Code) (w : Cmd) : (s.raise c w).x = s.x := rfl
@[simp] theorem State.v_raise (s : State) (c : Code) (w : Cmd) : (s.raise c w).v = s.v := rfl
@[simp] theorem State.csi_raise (s : State) (c : Code) (w : Cmd) : (s.raise c w).csi = s.csi := rfl
@[simp] theorem State.stat_raise (s : State) (c : Code) (w : Cmd) : (s.raise c w).stat = statRaise c s.stat := rfl
@[simp] theorem State.faultCmd_raise (s : State) (c : Code) (w : Cmd) : (s.raise c w).faultCmd = w := rfl
@[simp] theorem State.mem_raise (s : State) (c : Code) (w : Cmd) : (s.raise c w).mem = s.mem := rfl
@[simp] theorem State.draws_raise (s : State) (c : Code) (w : Cmd) : (s.raise c w).draws = s.draws := rfl
@[simp] theorem State.inbox_raise (s : State) (c : Code) (w : Cmd) : (s.raise c w).inbox = s.inbox := rfl
@[simp] theorem State.response_raise (s : State) (c : Code) (w : Cmd) : (s.raise c w).response = s.response := rfl
@[simp] theorem State.getX_raise (s : State) (c : Code) (w : Cmd) (q : XReg) : (s.raise c w).getX q = s.getX q := rfl
@[simp] theorem State.getV_raise (s : State) (c : Code) (w : Cmd) (q : VReg) : (s.raise c w).getV q = s.getV q := rfl
@[simp] theorem State.readByte_raise (s : State) (c : Code) (w : Cmd) (q : Nat) : (s.raise c w).readByte q = s.readByte q := rfl

@[simp] theorem State.cfg_takeDraw (s : State) : s.takeDraw.cfg = s.cfg := rfl
@[simp] theorem State.x_takeDraw (s : State) : s.takeDraw.x = s.x := rfl
@[simp] theorem State.v_takeDraw (s : State) : s.takeDraw.v = s.v := rfl
@[simp] theorem State.csi_takeDraw (s : State) : s.takeDraw.csi = s.csi := rfl
@[simp] theorem State.stat_takeDraw (s : State) : s.takeDraw.stat = s.stat := rfl
@[simp] theorem State.faultCmd_takeDraw (s : State) : s.takeDraw.faultCmd = s.faultCmd := rfl
@[simp] theorem State.mem_takeDraw (s : State) : s.takeDraw.mem = s.mem := rfl
@[simp] theorem State.draws_takeDraw (s : State) : s.takeDraw.draws = s.draws + 1 := rfl
@[simp] theorem State.inbox_takeDraw (s : State) : s.takeDraw.inbox = s.inbox := rfl
@[simp] theorem State.response_takeDraw (s : State) : s.takeDraw.response = s.response := rfl
@[simp] theorem State.getX_takeDraw (s : State) (q : XReg) : s.takeDraw.getX q = s.getX q := rfl
@[simp] theorem State.getV_takeDraw (s : State) (q : VReg) : s.takeDraw.getV q = s.getV q := rfl
@[simp] theorem State.readByte_takeDraw (s : State) (q : Nat) : s.takeDraw.readByte q = s.readByte q := rfl

@[simp] theorem State.cfg_respond (s : State) (a : Response) : (s.respond a).cfg = s.cfg := rfl
@[simp] theorem State.x_respond (s : State) (a : Response) : (s.respond a).x = s.x := rfl
@[simp] theorem State.v_respond (s : State) (a : Response) : (s.respond a).v = s.v := rfl
@[simp] theorem State.csi_respond (s : State) (a : Response) : (s.respond a).csi = s.csi := rfl
@[simp] theorem State.stat_respond (s : State) (a : Response) : (s.respond a).stat = s.stat := rfl
@[simp] theorem State.faultCmd_respond (s : State) (a : Response) : (s.respond a).faultCmd = s.faultCmd := rfl
@[simp] theorem State.mem_respond (s : State) (a : Response) : (s.respond a).mem = s.mem := rfl
@[simp] theorem State.draws_respond (s : State) (a : Response) : (s.respond a).draws = s.draws := rfl
@[simp] theorem State.inbox_respond (s : State) (a : Response) : (s.respond a).inbox = s.inbox := rfl
@[simp] theorem State.response_respond (s : State) (a : Response) : (s.respond a).response = a := rfl
@[simp] theorem State.getX_respond (s : State) (a : Response) (q : XReg) : (s.respond a).getX q = s.getX q := rfl
@[simp] theorem State.getV_respond (s : State) (a : Response) (q : VReg) : (s.respond a).getV q = s.getV q := rfl
@[simp] theorem State.readByte_respond (s : State) (a : Response) (q : Nat) : (s.respond a).readByte q = s.readByte q := rfl

@[simp] theorem State.cfg_take (s : State) (l : List HostAction) : (s.take l).cfg = s.cfg := rfl
@[simp] theorem State.x_take (s : State) (l : List HostAction) : (s.take l).x = s.x := rfl
@[simp] theorem State.v_take (s : State) (l : List HostAction) : (s.take l).v = s.v := rfl
@[simp] theorem State.csi_take (s : State) (l : List HostAction) : (s.take l).csi = s.csi := rfl
@[simp] theorem State.stat_take (s : State) (l : List HostAction) : (s.take l).stat = s.stat := rfl
@[simp] theorem State.faultCmd_take (s : State) (l : List HostAction) : (s.take l).faultCmd = s.faultCmd := rfl
@[simp] theorem State.mem_take (s : State) (l : List HostAction) : (s.take l).mem = s.mem := rfl
@[simp] theorem State.draws_take (s : State) (l : List HostAction) : (s.take l).draws = s.draws := rfl
@[simp] theorem State.inbox_take (s : State) (l : List HostAction) : (s.take l).inbox = l := rfl
@[simp] theorem State.response_take (s : State) (l : List HostAction) : (s.take l).response = .done := rfl
@[simp] theorem State.getX_take (s : State) (l : List HostAction) (q : XReg) : (s.take l).getX q = s.getX q := rfl
@[simp] theorem State.getV_take (s : State) (l : List HostAction) (q : VReg) : (s.take l).getV q = s.getV q := rfl
@[simp] theorem State.readByte_take (s : State) (l : List HostAction) (q : Nat) : (s.take l).readByte q = s.readByte q := rfl

@[simp] theorem State.cfg_hostReset (s : State) : s.hostReset.cfg = s.cfg := rfl
@[simp] theorem State.x_hostReset (s : State) : s.hostReset.x = Vector.replicate 16 0 := rfl
@[simp] theorem State.v_hostReset (s : State) : s.hostReset.v = Vector.replicate 16 0 := rfl
@[simp] theorem State.csi_hostReset (s : State) : s.hostReset.csi = 0 := rfl
@[simp] theorem State.stat_hostReset (s : State) : s.hostReset.stat = 0 := rfl
@[simp] theorem State.faultCmd_hostReset (s : State) : s.hostReset.faultCmd = 0 := rfl
@[simp] theorem State.mem_hostReset (s : State) : s.hostReset.mem = s.mem := rfl
@[simp] theorem State.draws_hostReset (s : State) : s.hostReset.draws = s.draws := rfl
@[simp] theorem State.inbox_hostReset (s : State) : s.hostReset.inbox = s.inbox := rfl
@[simp] theorem State.response_hostReset (s : State) : s.hostReset.response = s.response := rfl
@[simp] theorem State.readByte_hostReset (s : State) (q : Nat) : s.hostReset.readByte q = s.readByte q := rfl

@[simp] theorem State.cfg_completeX (s : State) (r : XReg) (p : Word) : (s.completeX r p).cfg = s.cfg := rfl
@[simp] theorem State.x_completeX (s : State) (r : XReg) (p : Word) : (s.completeX r p).x = (s.setX r p).x := rfl
@[simp] theorem State.v_completeX (s : State) (r : XReg) (p : Word) : (s.completeX r p).v = s.v := rfl
@[simp] theorem State.csi_completeX (s : State) (r : XReg) (p : Word) : (s.completeX r p).csi = s.csi + 1 := rfl
@[simp] theorem State.stat_completeX (s : State) (r : XReg) (p : Word) : (s.completeX r p).stat = statComplete s.stat := rfl
@[simp] theorem State.faultCmd_completeX (s : State) (r : XReg) (p : Word) : (s.completeX r p).faultCmd = s.faultCmd := rfl
@[simp] theorem State.mem_completeX (s : State) (r : XReg) (p : Word) : (s.completeX r p).mem = s.mem := rfl
@[simp] theorem State.draws_completeX (s : State) (r : XReg) (p : Word) : (s.completeX r p).draws = s.draws := rfl
@[simp] theorem State.inbox_completeX (s : State) (r : XReg) (p : Word) : (s.completeX r p).inbox = s.inbox := rfl
@[simp] theorem State.response_completeX (s : State) (r : XReg) (p : Word) : (s.completeX r p).response = s.response := rfl
@[simp] theorem State.getV_completeX (s : State) (r : XReg) (p : Word) (q : VReg) : (s.completeX r p).getV q = s.getV q := rfl
@[simp] theorem State.readByte_completeX (s : State) (r : XReg) (p : Word) (q : Nat) : (s.completeX r p).readByte q = s.readByte q := rfl

@[simp] theorem State.cfg_completeV (s : State) (r : VReg) (p : Word) : (s.completeV r p).cfg = s.cfg := rfl
@[simp] theorem State.x_completeV (s : State) (r : VReg) (p : Word) : (s.completeV r p).x = s.x := rfl
@[simp] theorem State.v_completeV (s : State) (r : VReg) (p : Word) : (s.completeV r p).v = (s.setV r p).v := rfl
@[simp] theorem State.csi_completeV (s : State) (r : VReg) (p : Word) : (s.completeV r p).csi = s.csi + 1 := rfl
@[simp] theorem State.stat_completeV (s : State) (r : VReg) (p : Word) : (s.completeV r p).stat = statComplete s.stat := rfl
@[simp] theorem State.faultCmd_completeV (s : State) (r : VReg) (p : Word) : (s.completeV r p).faultCmd = s.faultCmd := rfl
@[simp] theorem State.mem_completeV (s : State) (r : VReg) (p : Word) : (s.completeV r p).mem = s.mem := rfl
@[simp] theorem State.draws_completeV (s : State) (r : VReg) (p : Word) : (s.completeV r p).draws = s.draws := rfl
@[simp] theorem State.inbox_completeV (s : State) (r : VReg) (p : Word) : (s.completeV r p).inbox = s.inbox := rfl
@[simp] theorem State.response_completeV (s : State) (r : VReg) (p : Word) : (s.completeV r p).response = s.response := rfl
@[simp] theorem State.getX_completeV (s : State) (r : VReg) (p : Word) (q : XReg) : (s.completeV r p).getX q = s.getX q := rfl
@[simp] theorem State.readByte_completeV (s : State) (r : VReg) (p : Word) (q : Nat) : (s.completeV r p).readByte q = s.readByte q := rfl

theorem XReg.num_ne {a b : XReg} (h : a ≠ b) : a.num.toNat ≠ b.num.toNat := by
  intro e
  apply h
  cases a
  cases b
  simpa [BitVec.toNat_inj] using e

theorem VReg.num_ne {a b : VReg} (h : a ≠ b) : a.num.toNat ≠ b.num.toNat := by
  intro e
  apply h
  cases a
  cases b
  simpa [BitVec.toNat_inj] using e

@[simp] theorem State.getX_setX_self (s : State) (r : XReg) (p : Word) : (s.setX r p).getX r = p := by
  simp [State.getX, State.setX]

theorem State.getX_setX_ne (s : State) {q r : XReg} (p : Word) (h : q ≠ r) : (s.setX r p).getX q = s.getX q := by
  simp [State.getX, State.setX, (XReg.num_ne h).symm]

@[simp] theorem State.getV_setV_self (s : State) (r : VReg) (p : Word) : (s.setV r p).getV r = p := by
  simp [State.getV, State.setV]

theorem State.getV_setV_ne (s : State) {q r : VReg} (p : Word) (h : q ≠ r) : (s.setV r p).getV q = s.getV q := by
  simp [State.getV, State.setV, (VReg.num_ne h).symm]

@[simp] theorem State.getX_completeX_self (s : State) (r : XReg) (p : Word) : (s.completeX r p).getX r = p :=
  State.getX_setX_self s r p

theorem State.getX_completeX_ne (s : State) {q r : XReg} (p : Word) (h : q ≠ r) : (s.completeX r p).getX q = s.getX q :=
  State.getX_setX_ne s p h

@[simp] theorem State.getV_completeV_self (s : State) (r : VReg) (p : Word) : (s.completeV r p).getV r = p :=
  State.getV_setV_self s r p

theorem State.getV_completeV_ne (s : State) {q r : VReg} (p : Word) (h : q ≠ r) : (s.completeV r p).getV q = s.getV q :=
  State.getV_setV_ne s p h

@[simp] theorem State.getX_hostReset (s : State) (r : XReg) : s.hostReset.getX r = 0 := by
  simp [State.getX, State.hostReset]

@[simp] theorem State.getV_hostReset (s : State) (r : VReg) : s.hostReset.getV r = 0 := by
  simp [State.getV, State.hostReset]

/-- ACK changes `STAT` alone (60_exceptions.md R235). -/
theorem State.ack_eq (s : State) : s.ack = { s with stat := if statFaulted s.stat then statAck s.stat else s.stat } := by
  unfold State.ack
  split <;> rfl

@[simp] theorem State.stat_ack (s : State) : s.ack.stat = if statFaulted s.stat then statAck s.stat else s.stat := by rw [State.ack_eq]
@[simp] theorem State.cfg_ack (s : State) : s.ack.cfg = s.cfg := by rw [State.ack_eq]
@[simp] theorem State.x_ack (s : State) : s.ack.x = s.x := by rw [State.ack_eq]
@[simp] theorem State.v_ack (s : State) : s.ack.v = s.v := by rw [State.ack_eq]
@[simp] theorem State.csi_ack (s : State) : s.ack.csi = s.csi := by rw [State.ack_eq]
@[simp] theorem State.faultCmd_ack (s : State) : s.ack.faultCmd = s.faultCmd := by rw [State.ack_eq]
@[simp] theorem State.mem_ack (s : State) : s.ack.mem = s.mem := by rw [State.ack_eq]
@[simp] theorem State.draws_ack (s : State) : s.ack.draws = s.draws := by rw [State.ack_eq]
@[simp] theorem State.inbox_ack (s : State) : s.ack.inbox = s.inbox := by rw [State.ack_eq]
@[simp] theorem State.response_ack (s : State) : s.ack.response = s.response := by rw [State.ack_eq]
@[simp] theorem State.getX_ack (s : State) (q : XReg) : s.ack.getX q = s.getX q := by rw [State.ack_eq]; rfl
@[simp] theorem State.getV_ack (s : State) (q : VReg) : s.ack.getV q = s.getV q := by rw [State.ack_eq]; rfl
@[simp] theorem State.readByte_ack (s : State) (q : Nat) : s.ack.readByte q = s.readByte q := by rw [State.ack_eq]; rfl

end Sys2Proof.Machine
end

