-- ==== Sys2Proof/Laws/Ops.lean ====
section
/-! SUPPORT. For each shared operation, what it does, once: the ends of a command (60_exceptions.md R231, R232), the geometry check
(40_codec.md R100), and the invariant's parts. -/

namespace Sys2Proof.Machine

theorem succeeds_complete (s : State) : Succeeds s s.complete := by simp [Succeeds]

theorem sameX_refl (s : State) : SameX s s := fun _ => rfl

theorem sameV_refl (s : State) : SameV s s := fun _ => rfl

/-- A command that ends in `completeX` writes its register alone. -/
theorem completesX (s : State) (d : XReg) (p : Word) : CompletesX d s (s.completeX d p) := by
  refine ⟨by simp [Succeeds], fun r h => State.getX_completeX_ne s p h, fun _ => by simp, fun _ => by simp, by simp, ?_⟩
  simp [SameOutside]

/-- A command that ends in `completeV` writes its register alone. -/
theorem completesV (s : State) (d : VReg) (p : Word) : CompletesV d s (s.completeV d p) := by
  refine ⟨by simp [Succeeds], fun _ => by simp, fun r h => State.getV_completeV_ne s p h, fun _ => by simp, by simp, ?_⟩
  simp [SameOutside]

/-- A fault writes STAT and FAULTCMD alone. -/
theorem raises (s : State) (code : Code) (cmd : Cmd) : Raises code cmd s (s.raise code cmd) := by
  refine ⟨by simp, by simp, by simp, by simp, by simp, by simp, fun _ => by simp, fun _ => by simp, fun _ => by simp,
    by simp, ?_⟩
  simp [SameOutside]

/-- A field write that ends a command stores the field alone. -/
theorem completesStore (s : State) (hm : Memory.wf s.mem = true) (idx off w : Nat) (data : Word) (hw : w ≤ 64) (ho : off ≤ 63) :
    CompletesStore idx off w data s (s.setMem (Memory.writeField s.mem idx off w data)).complete := by
  refine ⟨by simp [Succeeds], fun _ => by simp, fun _ => by simp, by simp, by simp [SameOutside], ?_, ?_, ?_⟩
  · intro i hi
    simp only [State.mem_complete, State.mem_setMem]
    rw [Memory.streamBit_writeField _ hm _ _ _ _ _ hw ho, if_pos (by omega), show 64 * idx + off + i - (64 * idx + off) = i by omega]
  · intro p hp
    simp only [State.mem_complete, State.mem_setMem]
    rw [Memory.streamBit_writeField _ hm _ _ _ _ _ hw ho, if_neg (by omega)]
  · intro a ha
    simp only [TouchesWord, not_or, not_and] at ha
    exact Memory.readByte_writeField _ hm _ _ _ _ _ ha.1 ha.2

/-- The value that `completeV` leaves where it writes `norm(z)`. -/
theorem holdsFolded_completeV (s : State) (hw : s.cfg.wf = true) (d : VReg) (z : Int) :
    HoldsFolded (s.completeV d (normOf s.cfg z)) d z := by
  have hn := wf_width hw
  have hr := val_range s.cfg hn.1 _ (norm_lt s.cfg hn.2 z)
  refine ⟨?_, ?_, ?_, ?_⟩ <;> simp only [State.cfg_completeV, State.vval, State.getV_completeV_self]
  · exact norm_lt s.cfg hn.2 z
  · exact hr.1
  · exact hr.2
  · exact val_norm_modEq s.cfg hn.2 z

/-- The geometry check passes exactly on the legal geometries. -/
theorem checkGeometry_none (c : Config) (w off idx : Nat) : checkGeometry c w off idx = none ↔ GeometryOk c w off idx := by
  unfold checkGeometry GeometryOk
  split
  · simp
    omega
  · split
    · simp
      omega
    · split
      · simp
        omega
      · split
        · simp
          omega
        · simp
          omega

/-- The check reports the first failing condition of 40_codec.md R100. -/
theorem checkGeometry_some (c : Config) (w off idx : Nat) (code : Code) (h : checkGeometry c w off idx = some code) :
    (code = .invalidWidth ∧ (w < 1 ∨ 64 < w))
      ∨ (code = .invalidOffset ∧ 1 ≤ w ∧ w ≤ 64 ∧ 63 < off)
      ∨ (code = .storeBounds ∧ 1 ≤ w ∧ w ≤ 64 ∧ off ≤ 63 ∧ (c.nwords ≤ idx ∨ (64 < off + w ∧ c.nwords ≤ idx + 1))) := by
  unfold checkGeometry at h
  split at h
  · simp_all
  · split at h
    · simp_all
      omega
    · split at h
      · simp_all
        omega
      · split at h
        · simp_all
          omega
        · simp at h

/-- A codec command either passes the check and does its work, or takes the check's fault. -/
theorem withGeometry_cases (s : State) (cmd : Cmd) (w : Nat) (idx off : XReg) (go : Nat → Nat → State) :
    (GeometryOk s.cfg w (s.getX off).toNat (s.getX idx).toNat
        ∧ s.withGeometry cmd w idx off go = go (s.getX idx).toNat (s.getX off).toNat)
      ∨ ∃ code, checkGeometry s.cfg w (s.getX off).toNat (s.getX idx).toNat = some code
          ∧ s.withGeometry cmd w idx off go = s.raise code cmd := by
  unfold State.withGeometry
  simp only [uint64]
  cases h : checkGeometry s.cfg w (s.getX off).toNat (s.getX idx).toNat with
  | none => exact .inl ⟨(checkGeometry_none _ _ _ _).1 h, rfl⟩
  | some code => exact .inr ⟨code, rfl, rfl⟩

/-- A passed check: the codec command does its work. -/
theorem withGeometry_ok (s : State) (cmd : Cmd) (w : Nat) (idx off : XReg) (go : Nat → Nat → State)
    (h : GeometryOk s.cfg w (s.getX off).toNat (s.getX idx).toNat) :
    s.withGeometry cmd w idx off go = go (s.getX idx).toNat (s.getX off).toNat := by
  unfold State.withGeometry
  simp only [uint64, (checkGeometry_none _ _ _ _).2 h]

/-- The value registers are canonical, register by register. -/
theorem canonicalV_iff (s : State) : canonicalV s = true ↔ ∀ r : VReg, (s.getV r).toNat < 2 ^ s.cfg.n := by
  simp only [canonicalV, Vector.all_eq_true, decide_eq_true_eq]
  constructor
  · intro h r
    exact h r.num.toNat (by have := r.num.isLt; omega)
  · intro h i hi
    have := h ⟨BitVec.ofNat 4 i⟩
    simpa [State.getV, Nat.mod_eq_of_lt hi] using this

/-- A value register of a legal state reads as its value's pattern. -/
theorem norm_vval (s : State) (h : LegalState s) (r : VReg) : normOf s.cfg (s.vval r) = s.getV r :=
  norm_val s.cfg (wf_width h.1).2 _ ((canonicalV_iff s).1 h.2.1 r)

/-- Completing keeps STAT legal where the unit is not halted. -/
theorem statLegal_complete (st : BitVec 32) (h : statLegal st = true) (hf : statFaulted st = false) :
    statLegal (statComplete st) = true := by
  simp only [statLegal, Bool.and_eq_true, beq_iff_eq] at h ⊢
  simp [h.1.1.1, hf, Code.num]

/-- Faulting keeps STAT legal. -/
theorem statLegal_raise (st : BitVec 32) (h : statLegal st = true) (code : Code) (hc : code ≠ .ok) :
    statLegal (statRaise code st) = true := by
  simp only [statLegal, Bool.and_eq_true, beq_iff_eq] at h ⊢
  simp [h.1.1.1]
  exact ⟨Code.num_le code, fun e => hc ((Code.num_eq_zero_iff code).1 e)⟩

/-- Acknowledging keeps STAT legal. -/
theorem statLegal_ack (st : BitVec 32) (h : statLegal st = true) : statLegal (statAck st) = true := by
  simp only [statLegal, Bool.and_eq_true, Bool.or_eq_true, beq_iff_eq, decide_eq_true_eq] at h ⊢
  simp [h.1.1.1]
  exact ⟨h.1.1.2, h.2⟩

end Sys2Proof.Machine
end

