-- ==== Sys2Proof/Laws/Exec.lean ====
section
/-! SUPPORT. What a command can do, and what a step can do, once: the inversion lemmas that later proofs cite. -/

namespace Sys2Proof.Machine

/-- How a command ends: the five shapes, with what each asks of the command. -/
inductive Ending (i : Instr) (s : State) : State → Prop where
  /-- It writes a native register. -/
  | x (d : XReg) (p : Word) (h : destX i = some d) : Ending i s (s.completeX d p)
  /-- It writes an N-bit pattern to a value register. -/
  | v (d : VReg) (p : Word) (h : destV i = some d) (hp : s.cfg.wf = true → canonicalV s = true → p.toNat < 2 ^ s.cfg.n) :
      Ending i s (s.completeV d p)
  /-- It stores a field that passed the geometry check. -/
  | store (idx off w : Nat) (data : Word) (h : writesStore i = true) (hg : GeometryOk s.cfg w off idx) :
      Ending i s (s.setMem (Memory.writeField s.mem idx off w data)).complete
  /-- It takes a draw. -/
  | rand (d : VReg) (r : Int) (h : destV i = some d) : Ending i s (s.randWith d r)
  /-- It faults, with a code the table of status codes gives it. -/
  | fault (code : Code) (hc : code ≠ .ok) (h : s.cfg.wf = true → mayRaise code i = true) : Ending i s (s.raise code (encode i))

/-- A native result. -/
theorem ending_x {i : Instr} {s : State} {d : XReg} (p : Word) (h : destX i = some d) :
    ∃ t, Host.Outcome.next (s.completeX d p) = (.next t : Host.Outcome State Fault Refusal) ∧ Ending i s t :=
  ⟨_, rfl, .x d p h⟩

/-- A result through `norm`. -/
theorem ending_norm {i : Instr} {s : State} {d : VReg} (z : Int) (h : destV i = some d) :
    ∃ t, Host.Outcome.next (s.completeV d (normOf s.cfg z)) = (.next t : Host.Outcome State Fault Refusal) ∧ Ending i s t :=
  ⟨_, rfl, .v d _ h fun hw _ => norm_lt s.cfg (wf_width hw).2 z⟩

/-- A pattern result. -/
theorem ending_v {i : Instr} {s : State} {d : VReg} (p : Word) (h : destV i = some d)
    (hp : s.cfg.wf = true → canonicalV s = true → p.toNat < 2 ^ s.cfg.n) :
    ∃ t, Host.Outcome.next (s.completeV d p) = (.next t : Host.Outcome State Fault Refusal) ∧ Ending i s t :=
  ⟨_, rfl, .v d p h hp⟩

/-- A result or a fault. -/
theorem ending_finish {i : Instr} {s : State} {d : VReg} (r : Except Code Word) (h : destV i = some d)
    (hok : ∀ p, r = .ok p → s.cfg.wf = true → p.toNat < 2 ^ s.cfg.n)
    (herr : ∀ code, r = .error code → code ≠ .ok ∧ mayRaise code i = true) :
    ∃ t, Host.Outcome.next (s.finishV d (encode i) r) = (.next t : Host.Outcome State Fault Refusal) ∧ Ending i s t := by
  refine ⟨_, rfl, ?_⟩
  cases r with
  | ok p => exact .v d p h fun hw _ => hok p rfl hw
  | error code => exact .fault code (herr code rfl).1 fun _ => (herr code rfl).2

/-- A codec command. -/
theorem ending_geometry {i : Instr} {s : State} (w : Nat) (idx off : XReg) (go : Nat → Nat → State)
    (hgo : GeometryOk s.cfg w (s.getX off).toNat (s.getX idx).toNat → Ending i s (go (s.getX idx).toNat (s.getX off).toNat))
    (herr : ∀ code, checkGeometry s.cfg w (s.getX off).toNat (s.getX idx).toNat = some code →
      s.cfg.wf = true → mayRaise code i = true) :
    ∃ t, Host.Outcome.next (s.withGeometry (encode i) w idx off go) = (.next t : Host.Outcome State Fault Refusal) ∧ Ending i s t := by
  refine ⟨_, rfl, ?_⟩
  rcases withGeometry_cases s (encode i) w idx off go with ⟨hg, h⟩ | ⟨code, hc, h⟩
  · rw [h]
    exact hgo hg
  · rw [h]
    refine .fault code ?_ (herr code hc)
    rcases checkGeometry_some _ _ _ _ _ hc with ⟨rfl, -⟩ | ⟨rfl, -⟩ | ⟨rfl, -⟩ <;> decide

theorem mask_and_lt (n : Nat) (hn : n ≤ 64) (p : Word) : (p &&& mask n).toNat < 2 ^ n := by
  have h : (mask n).toNat = 2 ^ n - 1 := by
    rw [mask, BitVec.toNat_ofNat]
    have : 2 ^ n ≤ 2 ^ 64 := Nat.pow_le_pow_right (by norm_num) hn
    have : 0 < 2 ^ n := Nat.two_pow_pos n
    exact Nat.mod_eq_of_lt (by omega)
  rw [BitVec.toNat_and, h, Nat.and_two_pow_sub_one_eq_mod]
  exact Nat.mod_lt _ (Nat.two_pow_pos n)

theorem powNorm_lt (c : Config) (hn : c.n ≤ 64) (a : Int) (b : Nat) (hb : b < 2 ^ 64) : (powNorm c a b).toNat < 2 ^ c.n := by
  rw [powNorm_eq c a b hb]
  exact norm_lt c hn _

theorem shlUp_lt (c : Config) (hn : c.n ≤ 64) (a : Int) (k : Nat) : (shlUp c a k).toNat < 2 ^ c.n := norm_lt c hn _

theorem shrz_lt (c : Config) (hn : c.n ≤ 64) (a k : Int) : (shrz c a k).toNat < 2 ^ c.n := by
  unfold shrz
  split <;> exact norm_lt c hn _

theorem shr_lt (c : Config) (hn : c.n ≤ 64) (a k : Int) : (shr c a k).toNat < 2 ^ c.n := by
  unfold shr
  split
  · split <;> exact norm_lt c hn _
  · exact shrz_lt c hn a k

theorem shl_lt (c : Config) (hn : c.n ≤ 64) (a k : Int) : (shl c a k).toNat < 2 ^ c.n := by
  unfold shl
  split
  · exact shr_lt c hn a _
  · exact norm_lt c hn _

theorem rotl_lt (c : Config) (hn : c.n ≤ 64) (p : Word) (hp : p.toNat < 2 ^ c.n) (k : Int) : (rotl c p k).toNat < 2 ^ c.n := by
  simp only [rotl]
  split
  · exact hp
  · exact mask_and_lt c.n hn _

/-- A value's magnitude fits 64 bits. -/
theorem val_toNat_lt (c : Config) (p : Word) : (val c p).toNat < 2 ^ 64 := by
  have h := p.isLt
  have h0 : (0 : Int) < 2 ^ c.n := by positivity
  unfold val
  split <;> omega

/-- Every command ends in one of the five shapes. -/
theorem exec_ending (i : Instr) (s : State) : ∃ t, exec i s = .next t ∧ Ending i s t := by
  have canon : s.cfg.wf = true → canonicalV s = true → ∀ r, (s.getV r).toNat < 2 ^ s.cfg.n := fun _ h => (canonicalV_iff s).1 h
  cases i with
  | xli d imm => exact ending_x _ rfl
  | setraw d a => exact ending_norm _ rfl
  | get d a => exact ending_x _ rfl
  | tobf d a => exact ending_x _ rfl
  | setchk d a =>
    refine ending_finish _ rfl ?_ ?_ <;> intro p h <;> simp only [setchkResult] at h <;> split at h <;> cases h
    · exact fun hw => norm_lt _ (wf_width hw).2 _
    · exact ⟨by decide, rfl⟩
  | zero d => exact ending_v _ rfl fun _ _ => by simp
  | copy d a => exact ending_v _ rfl fun hw hc => canon hw hc a
  | maxb d => exact ending_norm _ rfl
  | minb d => exact ending_norm _ rfl
  | decode d xi xo w =>
    refine ending_geometry _ _ _ _ (fun _ => .x d _ rfl) fun code hc _ => ?_
    rcases checkGeometry_some _ _ _ _ _ hc with ⟨rfl, -⟩ | ⟨rfl, -⟩ | ⟨rfl, -⟩ <;> rfl
  | encode src xi xo w =>
    refine ending_geometry _ _ _ _ (fun hg => .store _ _ _ _ rfl hg) fun code hc _ => ?_
    rcases checkGeometry_some _ _ _ _ _ hc with ⟨rfl, -⟩ | ⟨rfl, -⟩ | ⟨rfl, -⟩ <;> rfl
  | ldv d xi xo =>
    refine ending_geometry _ _ _ _ (fun _ => .v d _ rfl fun hw _ => norm_lt _ (wf_width hw).2 _) fun code hc hw => ?_
    have hn := wf_width hw
    rcases checkGeometry_some _ _ _ _ _ hc with ⟨rfl, h⟩ | ⟨rfl, -⟩ | ⟨rfl, -⟩
    · omega
    · rfl
    · rfl
  | stv src xi xo =>
    refine ending_geometry _ _ _ _ (fun hg => .store _ _ _ _ rfl hg) fun code hc hw => ?_
    have hn := wf_width hw
    rcases checkGeometry_some _ _ _ _ _ hc with ⟨rfl, h⟩ | ⟨rfl, -⟩ | ⟨rfl, -⟩
    · omega
    · rfl
    · rfl
  | add d a b => exact ending_norm _ rfl
  | sub d a b => exact ending_norm _ rfl
  | mul d a b => exact ending_norm _ rfl
  | div d a b =>
    refine ending_finish _ rfl ?_ ?_ <;> intro p h <;> simp only [divisionResult] at h <;>
      (repeat' split at h) <;> cases h
    · exact fun hw => norm_lt _ (wf_width hw).2 _
    · exact ⟨by decide, rfl⟩
    · exact ⟨by decide, rfl⟩
  | mod d a b =>
    refine ending_finish _ rfl ?_ ?_ <;> intro p h <;> simp only [divisionResult] at h <;>
      (repeat' split at h) <;> cases h
    · exact fun hw => norm_lt _ (wf_width hw).2 _
    · exact ⟨by decide, rfl⟩
    · exact ⟨by decide, rfl⟩
  | neg d a =>
    refine ending_finish _ rfl ?_ ?_ <;> intro p h <;> simp only [signResult] at h <;> split at h <;> cases h
    · exact fun hw => norm_lt _ (wf_width hw).2 _
    · exact ⟨by decide, rfl⟩
  | abs d a =>
    refine ending_finish _ rfl ?_ ?_ <;> intro p h <;> simp only [signResult] at h <;> split at h <;> cases h
    · exact fun hw => norm_lt _ (wf_width hw).2 _
    · exact ⟨by decide, rfl⟩
  | succ d a => exact ending_norm _ rfl
  | pred d a => exact ending_norm _ rfl
  | gcd d a b =>
    refine ending_finish _ rfl ?_ ?_ <;> intro p h <;> simp only [representable] at h <;> split at h <;> cases h
    · exact fun hw => norm_lt _ (wf_width hw).2 _
    · exact ⟨by decide, rfl⟩
  | lcm d a b =>
    refine ending_finish _ rfl ?_ ?_ <;> intro p h <;> simp only [representable] at h <;> split at h <;> cases h
    · exact fun hw => norm_lt _ (wf_width hw).2 _
    · exact ⟨by decide, rfl⟩
  | pow d a b =>
    refine ending_finish _ rfl ?_ ?_ <;> intro p h <;> simp only [powResult] at h <;>
      (repeat' split at h) <;> cases h
    · exact fun hw => powNorm_lt _ (wf_width hw).2 _ _ (val_toNat_lt _ _)
    · exact ⟨by decide, rfl⟩
    · exact ⟨by decide, rfl⟩
  | shl d a b => exact ending_v _ rfl fun hw _ => shl_lt _ (wf_width hw).2 _ _
  | shr d a b => exact ending_v _ rfl fun hw _ => shr_lt _ (wf_width hw).2 _ _
  | shrz d a b => exact ending_v _ rfl fun hw _ => shrz_lt _ (wf_width hw).2 _ _
  | rotl d a b => exact ending_v _ rfl fun hw hc => rotl_lt _ (wf_width hw).2 _ (canon hw hc a) _
  | rotr d a b => exact ending_v _ rfl fun hw hc => rotl_lt _ (wf_width hw).2 _ (canon hw hc a) _
  | and d a b =>
    refine ending_v _ rfl fun hw hc => ?_
    rw [BitVec.toNat_and]
    exact Nat.and_lt_two_pow _ (canon hw hc b)
  | or d a b =>
    refine ending_v _ rfl fun hw hc => ?_
    rw [BitVec.toNat_or]
    exact Nat.or_lt_two_pow (canon hw hc a) (canon hw hc b)
  | xor d a b =>
    refine ending_v _ rfl fun hw hc => ?_
    rw [BitVec.toNat_xor]
    exact Nat.xor_lt_two_pow (canon hw hc a) (canon hw hc b)
  | not d a =>
    refine ending_v _ rfl fun hw hc => ?_
    rw [BitVec.toNat_xor]
    refine Nat.xor_lt_two_pow (canon hw hc a) ?_
    have := mask_and_lt s.cfg.n (wf_width hw).2 (mask s.cfg.n)
    rwa [BitVec.and_self] at this
  | cmp d a b => exact ending_x _ rfl
  | eq d a b => exact ending_x _ rfl
  | ne d a b => exact ending_x _ rfl
  | lt d a b => exact ending_x _ rfl
  | le d a b => exact ending_x _ rfl
  | gt d a b => exact ending_x _ rfl
  | ge d a b => exact ending_x _ rfl
  | rand d => exact ⟨_, rfl, .rand d _ rfl⟩

/-! The step. -/

/-- With nothing to perform, the unit is idle. -/
theorem step_idle (s : State) (h : s.inbox = []) : step s = .next s := by
  simp [step, hostStep, h]

/-- The oldest transaction is performed on the state that has taken it from the queue. -/
theorem step_perform (s : State) (act : HostAction) (rest : List HostAction) (h : s.inbox = act :: rest) :
    step s = perform act (s.take rest) := by
  simp [step, hostStep, h]

/-- What issuing a word can do: nothing while halted, IllegalCommand, or the decoded command. -/
theorem issue_cases (cmd : Cmd) (s : State) :
    (statFaulted s.stat = true ∧ issue cmd s = .next (s.respond .refused))
      ∨ (statFaulted s.stat = false ∧ (∃ e, decode cmd = .error e) ∧ issue cmd s = .next (s.raise .illegalCommand cmd))
      ∨ (statFaulted s.stat = false ∧ ∃ i, decode cmd = .ok i ∧ issue cmd s = exec i s) := by
  unfold issue
  cases hf : statFaulted s.stat with
  | true => exact .inl ⟨rfl, by simp⟩
  | false =>
    cases hd : decode cmd with
    | error e => exact .inr (.inl ⟨rfl, ⟨e, rfl⟩, by simp⟩)
    | ok i => exact .inr (.inr ⟨rfl, i, rfl, by simp⟩)

end Sys2Proof.Machine
end

