-- ==== Sys2Proof/Laws/PerInstr.lean ====
section
/-! SUPPORT. Per instruction: its encoded word selects its own row of the opcode table (30_encoding.md R78). -/

namespace Sys2Proof.Laws

/-- The row of a command in the opcode table, by its mnemonic. -/
def EncodedWordSelectsItsRow.rowNamed (name : String) : Option Row := opcodeRows.find? fun r => r.mnemonic == name

/-- The mnemonic of a command (30_encoding.md R78). -/
def EncodedWordSelectsItsRow.mnemonicOf : Instr → String
  | .xli _ _ => "XLI"
  | .setraw _ _ => "SETRAW"
  | .get _ _ => "GET"
  | .tobf _ _ => "TOBF"
  | .setchk _ _ => "SETCHK"
  | .zero _ => "ZERO"
  | .copy _ _ => "COPY"
  | .maxb _ => "MAXB"
  | .minb _ => "MINB"
  | .decode _ _ _ _ => "DECODE"
  | .encode _ _ _ _ => "ENCODE"
  | .ldv _ _ _ => "LDV"
  | .stv _ _ _ => "STV"
  | .add _ _ _ => "ADD"
  | .sub _ _ _ => "SUB"
  | .mul _ _ _ => "MUL"
  | .div _ _ _ => "DIV"
  | .mod _ _ _ => "MOD"
  | .neg _ _ => "NEG"
  | .abs _ _ => "ABS"
  | .succ _ _ => "SUCC"
  | .pred _ _ => "PRED"
  | .gcd _ _ _ => "GCD"
  | .lcm _ _ _ => "LCM"
  | .pow _ _ _ => "POW"
  | .shl _ _ _ => "SHL"
  | .shr _ _ _ => "SHR"
  | .shrz _ _ _ => "SHRZ"
  | .rotl _ _ _ => "ROTL"
  | .rotr _ _ _ => "ROTR"
  | .and _ _ _ => "AND"
  | .or _ _ _ => "OR"
  | .xor _ _ _ => "XOR"
  | .not _ _ => "NOT"
  | .cmp _ _ _ => "CMP"
  | .eq _ _ _ => "EQ"
  | .ne _ _ _ => "NE"
  | .lt _ _ _ => "LT"
  | .le _ _ _ => "LE"
  | .gt _ _ _ => "GT"
  | .ge _ _ _ => "GE"
  | .rand _ => "RAND"

/-- The row named by the command's mnemonic is in the table and selects the command's encoded word. -/
def EncodedWordSelectsItsRow.Statement (i : Instr) : Prop :=
  ∃ r, EncodedWordSelectsItsRow.rowNamed (EncodedWordSelectsItsRow.mnemonicOf i) = some r ∧ r ∈ opcodeRows ∧ r.selects (encode i) = true

/-- A row found by its name, from the word's fixed bits. -/
theorem EncodedWordSelectsItsRow.of_bits (i : Instr) (r : Row)
    (h : EncodedWordSelectsItsRow.rowNamed (EncodedWordSelectsItsRow.mnemonicOf i) = some r) (hb : encode i &&& r.mask = r.bits) :
    EncodedWordSelectsItsRow.Statement i :=
  ⟨r, h, List.mem_of_find?_eq_some h, by simp [Row.selects, hb]⟩

theorem EncodedWordSelectsItsRow.xli (d : XReg) (imm : Int) : EncodedWordSelectsItsRow.Statement (.xli d imm) :=
  EncodedWordSelectsItsRow.of_bits _ ⟨"XLI", 0xFF000000, 0x01000000, fun f => .xli f.xd f.imm⟩ rfl (formatXI_mask 0x01 d.num imm)

theorem EncodedWordSelectsItsRow.setraw (d : VReg) (a : XReg) : EncodedWordSelectsItsRow.Statement (.setraw d a) :=
  EncodedWordSelectsItsRow.of_bits _ ⟨"SETRAW", 0xFF00FFFF, 0x10000000, fun f => .setraw f.vd f.xa⟩ rfl (formatR_fixed_da 0x10 d.num a.num)

theorem EncodedWordSelectsItsRow.get (d : XReg) (a : VReg) : EncodedWordSelectsItsRow.Statement (.get d a) :=
  EncodedWordSelectsItsRow.of_bits _ ⟨"GET", 0xFF00FFFF, 0x11000000, fun f => .get f.xd f.va⟩ rfl (formatR_fixed_da 0x11 d.num a.num)

theorem EncodedWordSelectsItsRow.tobf (d : XReg) (a : VReg) : EncodedWordSelectsItsRow.Statement (.tobf d a) :=
  EncodedWordSelectsItsRow.of_bits _ ⟨"TOBF", 0xFF00FFFF, 0x12000000, fun f => .tobf f.xd f.va⟩ rfl (formatR_fixed_da 0x12 d.num a.num)

theorem EncodedWordSelectsItsRow.setchk (d : VReg) (a : XReg) : EncodedWordSelectsItsRow.Statement (.setchk d a) :=
  EncodedWordSelectsItsRow.of_bits _ ⟨"SETCHK", 0xFF00FFFF, 0x13000000, fun f => .setchk f.vd f.xa⟩ rfl (formatR_fixed_da 0x13 d.num a.num)

theorem EncodedWordSelectsItsRow.zero (d : VReg) : EncodedWordSelectsItsRow.Statement (.zero d) :=
  EncodedWordSelectsItsRow.of_bits _ ⟨"ZERO", 0xFF0FFFFF, 0x14000000, fun f => .zero f.vd⟩ rfl (formatR_fixed_d 0x14 d.num)

theorem EncodedWordSelectsItsRow.copy (d a : VReg) : EncodedWordSelectsItsRow.Statement (.copy d a) :=
  EncodedWordSelectsItsRow.of_bits _ ⟨"COPY", 0xFF00FFFF, 0x15000000, fun f => .copy f.vd f.va⟩ rfl (formatR_fixed_da 0x15 d.num a.num)

theorem EncodedWordSelectsItsRow.maxb (d : VReg) : EncodedWordSelectsItsRow.Statement (.maxb d) :=
  EncodedWordSelectsItsRow.of_bits _ ⟨"MAXB", 0xFF0FFFFF, 0x16000000, fun f => .maxb f.vd⟩ rfl (formatR_fixed_d 0x16 d.num)

theorem EncodedWordSelectsItsRow.minb (d : VReg) : EncodedWordSelectsItsRow.Statement (.minb d) :=
  EncodedWordSelectsItsRow.of_bits _ ⟨"MINB", 0xFF0FFFFF, 0x17000000, fun f => .minb f.vd⟩ rfl (formatR_fixed_d 0x17 d.num)

theorem EncodedWordSelectsItsRow.decode (d idx off : XReg) (w : Nat) : EncodedWordSelectsItsRow.Statement (.decode d idx off w) :=
  EncodedWordSelectsItsRow.of_bits _ ⟨"DECODE", 0xFF000F80, 0x20000000, fun f => .decode f.xd f.xa f.xb f.w⟩ rfl (formatC_fixed 0x20 d.num idx.num off.num w)

theorem EncodedWordSelectsItsRow.encode (src idx off : XReg) (w : Nat) : EncodedWordSelectsItsRow.Statement (.encode src idx off w) :=
  EncodedWordSelectsItsRow.of_bits _ ⟨"ENCODE", 0xFF000F80, 0x21000000, fun f => .encode f.xd f.xa f.xb f.w⟩ rfl (formatC_fixed 0x21 src.num idx.num off.num w)

theorem EncodedWordSelectsItsRow.ldv (d : VReg) (idx off : XReg) : EncodedWordSelectsItsRow.Statement (.ldv d idx off) :=
  EncodedWordSelectsItsRow.of_bits _ ⟨"LDV", 0xFF000FFF, 0x22000000, fun f => .ldv f.vd f.xa f.xb⟩ rfl (formatC_fixed_noWidth 0x22 d.num idx.num off.num)

theorem EncodedWordSelectsItsRow.stv (src : VReg) (idx off : XReg) : EncodedWordSelectsItsRow.Statement (.stv src idx off) :=
  EncodedWordSelectsItsRow.of_bits _ ⟨"STV", 0xFF000FFF, 0x23000000, fun f => .stv f.vd f.xa f.xb⟩ rfl (formatC_fixed_noWidth 0x23 src.num idx.num off.num)

theorem EncodedWordSelectsItsRow.add (d a b : VReg) : EncodedWordSelectsItsRow.Statement (.add d a b) :=
  EncodedWordSelectsItsRow.of_bits _ ⟨"ADD", 0xFF000FFF, 0x30000000, fun f => .add f.vd f.va f.vb⟩ rfl (formatR_fixed_dab 0x30 d.num a.num b.num)

theorem EncodedWordSelectsItsRow.sub (d a b : VReg) : EncodedWordSelectsItsRow.Statement (.sub d a b) :=
  EncodedWordSelectsItsRow.of_bits _ ⟨"SUB", 0xFF000FFF, 0x31000000, fun f => .sub f.vd f.va f.vb⟩ rfl (formatR_fixed_dab 0x31 d.num a.num b.num)

theorem EncodedWordSelectsItsRow.mul (d a b : VReg) : EncodedWordSelectsItsRow.Statement (.mul d a b) :=
  EncodedWordSelectsItsRow.of_bits _ ⟨"MUL", 0xFF000FFF, 0x32000000, fun f => .mul f.vd f.va f.vb⟩ rfl (formatR_fixed_dab 0x32 d.num a.num b.num)

theorem EncodedWordSelectsItsRow.div (d a b : VReg) : EncodedWordSelectsItsRow.Statement (.div d a b) :=
  EncodedWordSelectsItsRow.of_bits _ ⟨"DIV", 0xFF000FFF, 0x33000000, fun f => .div f.vd f.va f.vb⟩ rfl (formatR_fixed_dab 0x33 d.num a.num b.num)

theorem EncodedWordSelectsItsRow.mod (d a b : VReg) : EncodedWordSelectsItsRow.Statement (.mod d a b) :=
  EncodedWordSelectsItsRow.of_bits _ ⟨"MOD", 0xFF000FFF, 0x34000000, fun f => .mod f.vd f.va f.vb⟩ rfl (formatR_fixed_dab 0x34 d.num a.num b.num)

theorem EncodedWordSelectsItsRow.neg (d a : VReg) : EncodedWordSelectsItsRow.Statement (.neg d a) :=
  EncodedWordSelectsItsRow.of_bits _ ⟨"NEG", 0xFF00FFFF, 0x35000000, fun f => .neg f.vd f.va⟩ rfl (formatR_fixed_da 0x35 d.num a.num)

theorem EncodedWordSelectsItsRow.abs (d a : VReg) : EncodedWordSelectsItsRow.Statement (.abs d a) :=
  EncodedWordSelectsItsRow.of_bits _ ⟨"ABS", 0xFF00FFFF, 0x36000000, fun f => .abs f.vd f.va⟩ rfl (formatR_fixed_da 0x36 d.num a.num)

theorem EncodedWordSelectsItsRow.succ (d a : VReg) : EncodedWordSelectsItsRow.Statement (.succ d a) :=
  EncodedWordSelectsItsRow.of_bits _ ⟨"SUCC", 0xFF00FFFF, 0x37000000, fun f => .succ f.vd f.va⟩ rfl (formatR_fixed_da 0x37 d.num a.num)

theorem EncodedWordSelectsItsRow.pred (d a : VReg) : EncodedWordSelectsItsRow.Statement (.pred d a) :=
  EncodedWordSelectsItsRow.of_bits _ ⟨"PRED", 0xFF00FFFF, 0x38000000, fun f => .pred f.vd f.va⟩ rfl (formatR_fixed_da 0x38 d.num a.num)

theorem EncodedWordSelectsItsRow.gcd (d a b : VReg) : EncodedWordSelectsItsRow.Statement (.gcd d a b) :=
  EncodedWordSelectsItsRow.of_bits _ ⟨"GCD", 0xFF000FFF, 0x39000000, fun f => .gcd f.vd f.va f.vb⟩ rfl (formatR_fixed_dab 0x39 d.num a.num b.num)

theorem EncodedWordSelectsItsRow.lcm (d a b : VReg) : EncodedWordSelectsItsRow.Statement (.lcm d a b) :=
  EncodedWordSelectsItsRow.of_bits _ ⟨"LCM", 0xFF000FFF, 0x3A000000, fun f => .lcm f.vd f.va f.vb⟩ rfl (formatR_fixed_dab 0x3A d.num a.num b.num)

theorem EncodedWordSelectsItsRow.pow (d a b : VReg) : EncodedWordSelectsItsRow.Statement (.pow d a b) :=
  EncodedWordSelectsItsRow.of_bits _ ⟨"POW", 0xFF000FFF, 0x3B000000, fun f => .pow f.vd f.va f.vb⟩ rfl (formatR_fixed_dab 0x3B d.num a.num b.num)

theorem EncodedWordSelectsItsRow.shl (d a : VReg) (b : XReg) : EncodedWordSelectsItsRow.Statement (.shl d a b) :=
  EncodedWordSelectsItsRow.of_bits _ ⟨"SHL", 0xFF000FFF, 0x40000000, fun f => .shl f.vd f.va f.xb⟩ rfl (formatR_fixed_dab 0x40 d.num a.num b.num)

theorem EncodedWordSelectsItsRow.shr (d a : VReg) (b : XReg) : EncodedWordSelectsItsRow.Statement (.shr d a b) :=
  EncodedWordSelectsItsRow.of_bits _ ⟨"SHR", 0xFF000FFF, 0x41000000, fun f => .shr f.vd f.va f.xb⟩ rfl (formatR_fixed_dab 0x41 d.num a.num b.num)

theorem EncodedWordSelectsItsRow.shrz (d a : VReg) (b : XReg) : EncodedWordSelectsItsRow.Statement (.shrz d a b) :=
  EncodedWordSelectsItsRow.of_bits _ ⟨"SHRZ", 0xFF000FFF, 0x42000000, fun f => .shrz f.vd f.va f.xb⟩ rfl (formatR_fixed_dab 0x42 d.num a.num b.num)

theorem EncodedWordSelectsItsRow.rotl (d a : VReg) (b : XReg) : EncodedWordSelectsItsRow.Statement (.rotl d a b) :=
  EncodedWordSelectsItsRow.of_bits _ ⟨"ROTL", 0xFF000FFF, 0x43000000, fun f => .rotl f.vd f.va f.xb⟩ rfl (formatR_fixed_dab 0x43 d.num a.num b.num)

theorem EncodedWordSelectsItsRow.rotr (d a : VReg) (b : XReg) : EncodedWordSelectsItsRow.Statement (.rotr d a b) :=
  EncodedWordSelectsItsRow.of_bits _ ⟨"ROTR", 0xFF000FFF, 0x44000000, fun f => .rotr f.vd f.va f.xb⟩ rfl (formatR_fixed_dab 0x44 d.num a.num b.num)

theorem EncodedWordSelectsItsRow.and (d a b : VReg) : EncodedWordSelectsItsRow.Statement (.and d a b) :=
  EncodedWordSelectsItsRow.of_bits _ ⟨"AND", 0xFF000FFF, 0x45000000, fun f => .and f.vd f.va f.vb⟩ rfl (formatR_fixed_dab 0x45 d.num a.num b.num)

theorem EncodedWordSelectsItsRow.or (d a b : VReg) : EncodedWordSelectsItsRow.Statement (.or d a b) :=
  EncodedWordSelectsItsRow.of_bits _ ⟨"OR", 0xFF000FFF, 0x46000000, fun f => .or f.vd f.va f.vb⟩ rfl (formatR_fixed_dab 0x46 d.num a.num b.num)

theorem EncodedWordSelectsItsRow.xor (d a b : VReg) : EncodedWordSelectsItsRow.Statement (.xor d a b) :=
  EncodedWordSelectsItsRow.of_bits _ ⟨"XOR", 0xFF000FFF, 0x47000000, fun f => .xor f.vd f.va f.vb⟩ rfl (formatR_fixed_dab 0x47 d.num a.num b.num)

theorem EncodedWordSelectsItsRow.not (d a : VReg) : EncodedWordSelectsItsRow.Statement (.not d a) :=
  EncodedWordSelectsItsRow.of_bits _ ⟨"NOT", 0xFF00FFFF, 0x48000000, fun f => .not f.vd f.va⟩ rfl (formatR_fixed_da 0x48 d.num a.num)

theorem EncodedWordSelectsItsRow.cmp (d : XReg) (a b : VReg) : EncodedWordSelectsItsRow.Statement (.cmp d a b) :=
  EncodedWordSelectsItsRow.of_bits _ ⟨"CMP", 0xFF000FFF, 0x50000000, fun f => .cmp f.xd f.va f.vb⟩ rfl (formatR_fixed_dab 0x50 d.num a.num b.num)

theorem EncodedWordSelectsItsRow.eq (d : XReg) (a b : VReg) : EncodedWordSelectsItsRow.Statement (.eq d a b) :=
  EncodedWordSelectsItsRow.of_bits _ ⟨"EQ", 0xFF000FFF, 0x51000000, fun f => .eq f.xd f.va f.vb⟩ rfl (formatR_fixed_dab 0x51 d.num a.num b.num)

theorem EncodedWordSelectsItsRow.ne (d : XReg) (a b : VReg) : EncodedWordSelectsItsRow.Statement (.ne d a b) :=
  EncodedWordSelectsItsRow.of_bits _ ⟨"NE", 0xFF000FFF, 0x52000000, fun f => .ne f.xd f.va f.vb⟩ rfl (formatR_fixed_dab 0x52 d.num a.num b.num)

theorem EncodedWordSelectsItsRow.lt (d : XReg) (a b : VReg) : EncodedWordSelectsItsRow.Statement (.lt d a b) :=
  EncodedWordSelectsItsRow.of_bits _ ⟨"LT", 0xFF000FFF, 0x53000000, fun f => .lt f.xd f.va f.vb⟩ rfl (formatR_fixed_dab 0x53 d.num a.num b.num)

theorem EncodedWordSelectsItsRow.le (d : XReg) (a b : VReg) : EncodedWordSelectsItsRow.Statement (.le d a b) :=
  EncodedWordSelectsItsRow.of_bits _ ⟨"LE", 0xFF000FFF, 0x54000000, fun f => .le f.xd f.va f.vb⟩ rfl (formatR_fixed_dab 0x54 d.num a.num b.num)

theorem EncodedWordSelectsItsRow.gt (d : XReg) (a b : VReg) : EncodedWordSelectsItsRow.Statement (.gt d a b) :=
  EncodedWordSelectsItsRow.of_bits _ ⟨"GT", 0xFF000FFF, 0x55000000, fun f => .gt f.xd f.va f.vb⟩ rfl (formatR_fixed_dab 0x55 d.num a.num b.num)

theorem EncodedWordSelectsItsRow.ge (d : XReg) (a b : VReg) : EncodedWordSelectsItsRow.Statement (.ge d a b) :=
  EncodedWordSelectsItsRow.of_bits _ ⟨"GE", 0xFF000FFF, 0x56000000, fun f => .ge f.xd f.va f.vb⟩ rfl (formatR_fixed_dab 0x56 d.num a.num b.num)

theorem EncodedWordSelectsItsRow.rand (d : VReg) : EncodedWordSelectsItsRow.Statement (.rand d) :=
  EncodedWordSelectsItsRow.of_bits _ ⟨"RAND", 0xFF0FFFFF, 0x60000000, fun f => .rand f.vd⟩ rfl (formatR_fixed_d 0x60 d.num)

end Sys2Proof.Laws
end

