-- ==== Sys2Proof/Tests/Slice0.lean ====
section
/-! SUPPORT. Tests of one command or one transaction each, with their expected results from 95_test_vectors.md or worked out by hand from
the rules named, and for every obligation with hypotheses a witness: a concrete state and operands that meet them together. -/

namespace Sys2Proof.Tests

open Sys2Proof Sys2Proof.Machine

/- One thread for the many small kernel evaluations: each thread of its own would reserve a whole stack. -/
set_option Elab.async false

/-! Small states. -/

def x1 : XReg := ⟨1⟩
def x2 : XReg := ⟨2⟩
def x3 : XReg := ⟨3⟩
def x4 : XReg := ⟨4⟩
def v1 : VReg := ⟨1⟩
def v2 : VReg := ⟨2⟩
def v4 : VReg := ⟨4⟩

/-- The instance of width `n` with `words` store words. -/
def inst (n : Nat) (signed : Bool) (words : Nat) : Config := { n := n, signed := signed, nwords := words, hostByteOrder := .little }

/-- The instances of 95_test_vectors.md. -/
def s7 : Config := inst 7 true 2
def u7 : Config := inst 7 false 2

/-- `V1 = a`, `V2 = b` and all else at its reset value. -/
def sv (c : Config) (a b : Int) : State := ((State.powerOn c []).setV v1 (normOf c a)).setV v2 (normOf c b)

/-- `V1 = a`, `X3 = k`. -/
def sk (c : Config) (a : Int) (k : Word) : State := (sv c a 0).setX x3 k

/-- `X1 = p`. -/
def sx (c : Config) (p : Word) : State := (State.powerOn c []).setX x1 p

/-- The first two store words, and `X1` the data, `X2` the word index, `X3` the bit offset, as in 95_test_vectors.md L2.1. -/
def sm (c : Config) (m0 m1 data idx off : Word) : State :=
  (((State.powerOn c (Memory.writeWord (Memory.writeWord [] 0 m0) 1 m1)).setX x1 data).setX x2 idx).setX x3 off

/-- A host about to perform one transaction. -/
def host (s : State) (act : HostAction) : State := { s with inbox := [act] }

/-- A unit halted by `NEG v3, v1` of a `MINV` (95_test_vectors.md P2). -/
def halted : State := (sv s7 (-64) 0).raise .arithmeticOverflow 0x35310000

/-- What `f` reads in the next state. -/
def after {α : Type} (o : Host.Outcome State Fault Refusal) (f : State → α) : Option α :=
  match o with
  | .next t => some (f t)
  | _ => none

/-- The value of `V4` after a command that completed. -/
def v4After (i : Instr) (s : State) : Option Int :=
  (after (exec i s) fun t => if t.csi = s.csi + 1 ∧ statCode t.stat = 0 then some (t.vval v4) else none).join

/-- `X4` after a command that completed. -/
def x4After (i : Instr) (s : State) : Option Word :=
  (after (exec i s) fun t => if t.csi = s.csi + 1 ∧ statCode t.stat = 0 then some (t.getX x4) else none).join

/-- The first two store words after a command that completed. -/
def storeAfter (i : Instr) (s : State) : Option (Word × Word) :=
  (after (exec i s) fun t =>
    if t.csi = s.csi + 1 ∧ statCode t.stat = 0 then some (Memory.readWord t.mem 0, Memory.readWord t.mem 1) else none).join

/-- A command that faults with `code`: `STAT`, `FAULTCMD` and `CSI`, and no other change (60_exceptions.md R232). -/
def faults (i : Instr) (s : State) (code : Code) : Bool :=
  match exec i s with
  | .next t => decide (t = { s with stat := 0x30 ||| code.num.setWidth 32, faultCmd := encode i })
  | _ => false

/-! WellFormed: the ill-formed terms each check refuses (30_encoding.md R76). -/

theorem test_wellFormed_refuses_immediate_above_range : (Instr.xli x1 524288).wellFormed = false := by decide
theorem test_wellFormed_refuses_immediate_below_range : (Instr.xli x1 (-524289)).wellFormed = false := by decide
theorem test_wellFormed_refuses_decode_width : (Instr.decode x1 x2 x3 128).wellFormed = false := by decide
theorem test_wellFormed_refuses_encode_width : (Instr.encode x1 x2 x3 128).wellFormed = false := by decide

/-! Decode: a word for every constructor, written out from the format of its row (30_encoding.md R72 to R78): opcode, D, A, B. -/

theorem test_decode_value_words :
    decode 0x0120003A = .ok (.xli ⟨2⟩ 58)
      ∧ decode 0x011FFFFF = .ok (.xli ⟨1⟩ (-1))
      ∧ decode 0x10410000 = .ok (.setraw ⟨4⟩ ⟨1⟩)
      ∧ decode 0x11510000 = .ok (.get ⟨5⟩ ⟨1⟩)
      ∧ decode 0x12610000 = .ok (.tobf ⟨6⟩ ⟨1⟩)
      ∧ decode 0x13350000 = .ok (.setchk ⟨3⟩ ⟨5⟩)
      ∧ decode 0x14300000 = .ok (.zero ⟨3⟩)
      ∧ decode 0x15120000 = .ok (.copy ⟨1⟩ ⟨2⟩)
      ∧ decode 0x16F00000 = .ok (.maxb ⟨15⟩)
      ∧ decode 0x17100000 = .ok (.minb ⟨1⟩) := by
  decide +kernel

theorem test_decode_codec_words :
    decode 0x20423007 = .ok (.decode ⟨4⟩ ⟨2⟩ ⟨3⟩ 7)
      ∧ decode 0x2012307F = .ok (.decode ⟨1⟩ ⟨2⟩ ⟨3⟩ 127)
      ∧ decode 0x21123040 = .ok (.encode ⟨1⟩ ⟨2⟩ ⟨3⟩ 64)
      ∧ decode 0x22112000 = .ok (.ldv ⟨1⟩ ⟨1⟩ ⟨2⟩)
      ∧ decode 0x23123000 = .ok (.stv ⟨1⟩ ⟨2⟩ ⟨3⟩) := by
  decide +kernel

theorem test_decode_arith_words :
    decode 0x30456000 = .ok (.add ⟨4⟩ ⟨5⟩ ⟨6⟩)
      ∧ decode 0x31456000 = .ok (.sub ⟨4⟩ ⟨5⟩ ⟨6⟩)
      ∧ decode 0x32456000 = .ok (.mul ⟨4⟩ ⟨5⟩ ⟨6⟩)
      ∧ decode 0x33534000 = .ok (.div ⟨5⟩ ⟨3⟩ ⟨4⟩)
      ∧ decode 0x34534000 = .ok (.mod ⟨5⟩ ⟨3⟩ ⟨4⟩)
      ∧ decode 0x35310000 = .ok (.neg ⟨3⟩ ⟨1⟩)
      ∧ decode 0x36320000 = .ok (.abs ⟨3⟩ ⟨2⟩)
      ∧ decode 0x37100000 = .ok (.succ ⟨1⟩ ⟨0⟩)
      ∧ decode 0x38210000 = .ok (.pred ⟨2⟩ ⟨1⟩)
      ∧ decode 0x39456000 = .ok (.gcd ⟨4⟩ ⟨5⟩ ⟨6⟩)
      ∧ decode 0x3A456000 = .ok (.lcm ⟨4⟩ ⟨5⟩ ⟨6⟩)
      ∧ decode 0x3B312000 = .ok (.pow ⟨3⟩ ⟨1⟩ ⟨2⟩) := by
  decide +kernel

theorem test_decode_bit_words :
    decode 0x40214000 = .ok (.shl ⟨2⟩ ⟨1⟩ ⟨4⟩)
      ∧ decode 0x41315000 = .ok (.shr ⟨3⟩ ⟨1⟩ ⟨5⟩)
      ∧ decode 0x42414000 = .ok (.shrz ⟨4⟩ ⟨1⟩ ⟨4⟩)
      ∧ decode 0x4389A000 = .ok (.rotl ⟨8⟩ ⟨9⟩ ⟨10⟩)
      ∧ decode 0x4489A000 = .ok (.rotr ⟨8⟩ ⟨9⟩ ⟨10⟩)
      ∧ decode 0x4589A000 = .ok (.and ⟨8⟩ ⟨9⟩ ⟨10⟩)
      ∧ decode 0x4689A000 = .ok (.or ⟨8⟩ ⟨9⟩ ⟨10⟩)
      ∧ decode 0x4789A000 = .ok (.xor ⟨8⟩ ⟨9⟩ ⟨10⟩)
      ∧ decode 0x48890000 = .ok (.not ⟨8⟩ ⟨9⟩) := by
  decide +kernel

theorem test_decode_compare_words :
    decode 0x50624000 = .ok (.cmp ⟨6⟩ ⟨2⟩ ⟨4⟩)
      ∧ decode 0x51412000 = .ok (.eq ⟨4⟩ ⟨1⟩ ⟨2⟩)
      ∧ decode 0x52412000 = .ok (.ne ⟨4⟩ ⟨1⟩ ⟨2⟩)
      ∧ decode 0x53412000 = .ok (.lt ⟨4⟩ ⟨1⟩ ⟨2⟩)
      ∧ decode 0x54412000 = .ok (.le ⟨4⟩ ⟨1⟩ ⟨2⟩)
      ∧ decode 0x55412000 = .ok (.gt ⟨4⟩ ⟨1⟩ ⟨2⟩)
      ∧ decode 0x56412000 = .ok (.ge ⟨4⟩ ⟨1⟩ ⟨2⟩)
      ∧ decode 0x60200000 = .ok (.rand ⟨2⟩) := by
  decide +kernel

/-- One word of each format in binary, field by field: OPC, D, A, B and the rest. -/
theorem test_decode_words_bit_by_bit :
    decode (0b00110010#8 ++ 0b0001#4 ++ 0b0010#4 ++ 0b0011#4 ++ 0b000000000000#12) = .ok (.mul ⟨1⟩ ⟨2⟩ ⟨3⟩)
      ∧ decode (0b01000001#8 ++ 0b1110#4 ++ 0b0111#4 ++ 0b1000#4 ++ 0b000000000000#12) = .ok (.shr ⟨14⟩ ⟨7⟩ ⟨8⟩)
      ∧ decode (0b01010011#8 ++ 0b0100#4 ++ 0b1000#4 ++ 0b0001#4 ++ 0b000000000000#12) = .ok (.lt ⟨4⟩ ⟨8⟩ ⟨1⟩)
      ∧ decode (0b00100001#8 ++ 0b1000#4 ++ 0b0100#4 ++ 0b0010#4 ++ 0b00000#5 ++ 0b1000001#7) = .ok (.encode ⟨8⟩ ⟨4⟩ ⟨2⟩ 65)
      ∧ decode (0b00000001#8 ++ 0b0011#4 ++ 0b10000000000000000001#20) = .ok (.xli ⟨3⟩ (-524287)) := by
  decide +kernel

/-- Illegal words (30_encoding.md R79, R80): 95_test_vectors.md L2.1 row 20, L2.2 rows 24 and 25, L2.6 rows 1 to 3, and a codec ZERO bit. -/
theorem test_illegal_words :
    decode 0x22123001 = .error .mustBeZero ∧ decode 0x10110001 = .error .mustBeZero ∧ decode 0x14110000 = .error .mustBeZero
      ∧ decode 0x30000001 = .error .mustBeZero ∧ decode 0x20123087 = .error .mustBeZero
      ∧ decode 0x00000000 = .error .unassignedOpcode ∧ decode 0xFF000000 = .error .unassignedOpcode := by
  decide +kernel

theorem test_decodeTableWord : decodeTableWord 32 0x30412000 = some (.add ⟨4⟩ ⟨1⟩ ⟨2⟩) ∧ decodeTableWord 32 0x30412001 = none := by
  decide +kernel

/-- `withFetchWord` runs its word as the next instruction after reset. -/
theorem test_fetch_after_reset : after (step (State.reset.withFetchWord 32 0x0120003A)) (fun t => (t.getX x2, t.csi)) = some (58, 1) := by
  decide +kernel

/-! The commands, one step each. -/

/-- L2.2 row 2. -/
theorem test_xli_sign_extends : x4After (.xli x4 (-1)) (State.reset) = some 0xFFFFFFFFFFFFFFFF := by decide +kernel

/-- L2.2 row 3. -/
theorem test_xli_least : x4After (.xli x4 (-524288)) (State.reset) = some 0xFFFFFFFFFFF80000 := by decide +kernel

/-- L2.2 row 4. -/
theorem test_setraw_folds : v4After (.setraw v4 x1) (sx s7 65) = some (-63) := by decide +kernel

/-- L2.2 row 6. -/
theorem test_setraw_unsigned : v4After (.setraw v4 x1) (sx u7 200) = some 72 := by decide +kernel

/-- L2.2 row 7. -/
theorem test_get_sign_extends : x4After (.get x4 v1) (sv s7 (-63) 0) = some 0xFFFFFFFFFFFFFFC1 := by decide +kernel

/-- L2.2 row 9. -/
theorem test_get_unsigned : x4After (.get x4 v1) (sv u7 127 0) = some 0x7F := by decide +kernel

/-- L2.2 row 8. -/
theorem test_tobf_pattern : x4After (.tobf x4 v1) (sv s7 (-63) 0) = some 0x41 := by decide +kernel

/-- L2.2 row 11. -/
theorem test_tobf_width_64 : x4After (.tobf x4 v1) (sv (inst 64 true 2) (-1) 0) = some 0xFFFFFFFFFFFFFFFF := by decide +kernel

/-- L2.2 rows 12 and 13. -/
theorem test_setchk_bounds :
    v4After (.setchk v4 x1) (sx s7 0xFFFFFFFFFFFFFFC0) = some (-64)
      ∧ faults (.setchk v4 x1) (sx s7 64) .parseOverflow = true := by decide +kernel

/-- L2.2 row 17. -/
theorem test_setchk_unsigned_reads_unsigned :
    faults (.setchk v4 x1) (sx u7 0xFFFFFFFFFFFFFFFF) .parseOverflow = true := by decide +kernel

/-- L2.2 row 20. -/
theorem test_zero : v4After (.zero v4) ((State.powerOn s7 []).setV v4 5) = some 0 := by decide +kernel

/-- L2.2 row 21. -/
theorem test_copy : v4After (.copy v4 v2) (sv s7 1 5) = some 5 := by decide +kernel

/-- L2.2 rows 22 and 23. -/
theorem test_maxb :
    v4After (.maxb v4) (State.reset) = some 63
      ∧ v4After (.maxb v4) (State.powerOn (inst 1 true 1) []) = some 0 := by decide +kernel

/-- L2.2 rows 22 and 23. -/
theorem test_minb :
    v4After (.minb v4) (State.reset) = some (-64)
      ∧ v4After (.minb v4) (State.powerOn (inst 1 true 1) []) = some (-1) := by decide +kernel

/-- L1.5. -/
theorem test_decode_crosses_words : x4After (.decode x4 x2 x3 7) (sm s7 0x0400000000000000 1 0 0 58) = some 0x41 := by decide +kernel

/-- L2.1 rows 11 and 13. -/
theorem test_decode_priority :
    faults (.decode x1 x2 x3 0) (sm s7 0 0 0 0 64) .invalidWidth = true
      ∧ faults (.decode x1 x2 x3 7) (sm s7 0 0 0 1 58) .storeBounds = true := by decide +kernel

/-- L2.1 row 3. -/
theorem test_encode_crosses_words :
    storeAfter (.encode x1 x2 x3 64) (sm s7 0xAAAAAAAAAAAAAAAA 0xAAAAAAAAAAAAAAAA 0x1122334455667788 0 32)
    = some (0x55667788AAAAAAAA, 0xAAAAAAAA11223344) := by decide +kernel

/-- L2.1 row 5. -/
theorem test_encode_ignores_high_data_bits :
    storeAfter (.encode x1 x2 x3 7) (sm s7 0xFFFFFFFFFFFFFFFF 0xFFFFFFFFFFFFFFFF 0xFFFFFFFFFFFFFF80 0 58)
    = some (0x03FFFFFFFFFFFFFF, 0xFFFFFFFFFFFFFFFE) := by decide +kernel

/-- L2.1 row 16. -/
theorem test_ldv_reads_signed : v4After (.ldv v4 x2 x3) (sm s7 0x0400000000000000 1 0 0 58) = some (-63) := by decide +kernel

/-- 40_codec.md R100: the offset is checked before the index. -/
theorem test_ldv_offset_64 : faults (.ldv v4 x2 x3) (sm s7 0 0 0 2 64) .invalidOffset = true := by decide +kernel

/-- L2.1 row 17. -/
theorem test_stv_crosses_words :
    storeAfter (.stv v1 x2 x3) ((sv s7 (-1) 0).setX x3 60) = some (0xF000000000000000, 0x7) := by decide +kernel

/-- L2.1 row 18. -/
theorem test_stv_width_13 : storeAfter (.stv v1 x2 x3) ((sv (inst 13 true 2) (-4096) 0).setX x3 52) = some (0, 1) := by decide +kernel

/-- L2.3 row 1. -/
theorem test_add_wraps : v4After (.add v4 v1 v2) (sv s7 63 1) = some (-64) := by decide +kernel

/-- L2.3 row 32. -/
theorem test_add_same_register : after (exec (.add v1 v1 v1) (sv s7 5 0)) (fun t => t.vval v1) = some 10 := by decide +kernel

/-- L2.3 row 2. -/
theorem test_sub_wraps : v4After (.sub v4 v1 v2) (sv s7 (-64) 1) = some 63 := by decide +kernel

/-- L2.3 row 3. -/
theorem test_mul_wraps : v4After (.mul v4 v1 v2) (sv s7 9 9) = some (-47) := by decide +kernel

/-- L2.3 row 5. -/
theorem test_mul_minv : v4After (.mul v4 v1 v2) (sv s7 (-64) (-1)) = some (-64) := by decide +kernel

/-- L2.3 rows 6 and 9. -/
theorem test_div_truncates :
    v4After (.div v4 v1 v2) (sv s7 (-7) 2) = some (-3)
      ∧ faults (.div v4 v1 v2) (sv s7 0 0) .divisionByZero = true := by decide +kernel

/-- L2.3 row 8. -/
theorem test_div_overflow : faults (.div v4 v1 v2) (sv s7 (-64) (-1)) .arithmeticOverflow = true := by decide +kernel

/-- L2.3 row 7. -/
theorem test_mod_sign_of_dividend :
    v4After (.mod v4 v1 v2) (sv s7 (-7) 2) = some (-1)
      ∧ v4After (.mod v4 v1 v2) (sv s7 7 (-2)) = some 1 := by decide +kernel

/-- L2.3 row 8. -/
theorem test_mod_overflow : faults (.mod v4 v1 v2) (sv s7 (-64) (-1)) .arithmeticOverflow = true := by decide +kernel

/-- L2.3 row 12. -/
theorem test_neg_minv : faults (.neg v4 v1) (sv s7 (-64) 0) .arithmeticOverflow = true := by decide +kernel

/-- L2.3 row 13. -/
theorem test_neg_unsigned_wraps : v4After (.neg v4 v1) (sv u7 5 0) = some 123 := by decide +kernel

/-- L2.3 row 14. -/
theorem test_abs :
    v4After (.abs v4 v1) (sv s7 (-5) 0) = some 5
      ∧ faults (.abs v4 v1) (sv s7 (-64) 0) .arithmeticOverflow = true := by decide +kernel

/-- L2.3 row 15. -/
theorem test_abs_unsigned : v4After (.abs v4 v1) (sv u7 100 0) = some 100 := by decide +kernel

/-- L2.3 rows 16 and 17. -/
theorem test_succ_wraps :
    v4After (.succ v4 v1) (sv s7 63 0) = some (-64)
      ∧ v4After (.succ v4 v1) (sv u7 127 0) = some 0 := by decide +kernel

/-- L2.3 rows 16 and 17. -/
theorem test_pred_wraps :
    v4After (.pred v4 v1) (sv s7 (-64) 0) = some 63
      ∧ v4After (.pred v4 v1) (sv u7 0 0) = some 127 := by decide +kernel

/-- L2.3 row 18. -/
theorem test_gcd :
    v4After (.gcd v4 v1 v2) (sv s7 (-12) 18) = some 6
      ∧ v4After (.gcd v4 v1 v2) (sv s7 (-64) 2) = some 2 := by decide +kernel

/-- L2.3 row 19. -/
theorem test_gcd_overflow : faults (.gcd v4 v1 v2) (sv s7 (-64) 0) .arithmeticOverflow = true := by decide +kernel

/-- L2.3 row 20. -/
theorem test_lcm : v4After (.lcm v4 v1 v2) (sv s7 (-4) 6) = some 12 ∧ v4After (.lcm v4 v1 v2) (sv s7 0 5) = some 0 := by decide +kernel

/-- L2.3 row 21. -/
theorem test_lcm_overflow : faults (.lcm v4 v1 v2) (sv s7 63 62) .arithmeticOverflow = true := by decide +kernel

/-- L2.3 rows 23 and 24. -/
theorem test_pow_wraps :
    v4After (.pow v4 v1 v2) (sv (inst 10 false 2) 3 7) = some 139
      ∧ v4After (.pow v4 v1 v2) (sv s7 (-2) 3) = some (-8) := by decide +kernel

/-- L2.3 rows 23 and 25. -/
theorem test_pow_faults :
    faults (.pow v4 v1 v2) (sv s7 0 0) .invalidOperation = true
      ∧ faults (.pow v4 v1 v2) (sv s7 2 (-1)) .invalidOperation = true := by decide +kernel

/-- L2.4 row 1. -/
theorem test_shl_count_modulo_width :
    v4After (.shl v4 v1 x3) (sk s7 5 7) = some 5
      ∧ v4After (.shl v4 v1 x3) (sk s7 5 9) = some 20 := by decide +kernel

/-- L2.4 rows 3 and 11. -/
theorem test_shl_negative_count :
    v4After (.shl v4 v1 x3) (sk s7 (-5) (-1)) = some (-3)
      ∧ v4After (.shl v4 v1 x3) (sk s7 5 0x8000000000000000) = some 0 := by decide +kernel

/-- L2.4 rows 4 and 5. -/
theorem test_shr_replicates_sign :
    v4After (.shr v4 v1 x3) (sk s7 (-64) 100) = some (-1)
      ∧ v4After (.shr v4 v1 x3) (sk s7 (-5) 1) = some (-3) := by decide +kernel

/-- L2.4 rows 7 and 11. -/
theorem test_shr_negative_count :
    v4After (.shr v4 v1 x3) (sk s7 5 (-2)) = some 20
      ∧ v4After (.shr v4 v1 x3) (sk s7 (-5) 0x8000000000000000) = some (-10) := by decide +kernel

/-- L2.4 row 8. -/
theorem test_shrz_fills_at_width :
    v4After (.shrz v4 v1 x3) (sk s7 (-1) 1) = some 63
      ∧ v4After (.shrz v4 v1 x3) (sk s7 (-1) 7) = some 0 := by decide +kernel

/-- L2.4 row 8. -/
theorem test_shrz_negative_count : v4After (.shrz v4 v1 x3) (sk s7 5 (-1)) = some 10 := by decide +kernel

/-- L2.4 row 14. -/
theorem test_rotl :
    v4After (.rotl v4 v1 x3) (sk s7 (-64) 1) = some 1
      ∧ v4After (.rotl v4 v1 x3) (sk s7 3 8) = some 6 := by decide +kernel

/-- L2.4 row 14. -/
theorem test_rotl_negative_count : v4After (.rotl v4 v1 x3) (sk s7 1 (-1)) = some (-64) := by decide +kernel

/-- L2.4 row 15. -/
theorem test_rotr :
    v4After (.rotr v4 v1 x3) (sk s7 1 1) = some (-64)
      ∧ v4After (.rotr v4 v1 x3) (sk s7 1 0x8000000000000000) = some 2 := by decide +kernel

/-- L2.4 row 16. -/
theorem test_and : v4After (.and v4 v1 v2) (sv s7 (-1) 5) = some 5 := by decide +kernel

/-- L2.4 row 16. -/
theorem test_or : v4After (.or v4 v1 v2) (sv s7 (-64) 5) = some (-59) := by decide +kernel

/-- L2.4 row 18. -/
theorem test_xor : v4After (.xor v4 v1 v2) (sv u7 0x55 0x7F) = some 42 := by decide +kernel

/-- L2.4 rows 17 and 18. -/
theorem test_not : v4After (.not v4 v1) (sv s7 (-64) 0) = some 63 ∧ v4After (.not v4 v1) (sv u7 0 0) = some 127 := by decide +kernel

/-- L2.5 row 1. -/
theorem test_cmp :
    x4After (.cmp x4 v1 v2) (sv s7 (-64) 63) = some 0xFFFFFFFFFFFFFFFF
      ∧ x4After (.cmp x4 v1 v2) (sv s7 63 (-64)) = some 1 := by decide +kernel

/-- L2.5 row 5, and 44_compare_random.md R211. -/
theorem test_eq : x4After (.eq x4 v1 v2) (sv s7 5 5) = some 1 ∧ x4After (.eq x4 v1 v2) (sv s7 5 6) = some 0 := by decide +kernel

/-- L2.5 row 5. -/
theorem test_ne : x4After (.ne x4 v1 v2) (sv s7 5 6) = some 1 ∧ x4After (.ne x4 v1 v2) (sv s7 5 5) = some 0 := by decide +kernel

/-- L2.5 rows 2 and 3. -/
theorem test_lt : x4After (.lt x4 v1 v2) (sv s7 (-1) 0) = some 1 ∧ x4After (.lt x4 v1 v2) (sv u7 127 0) = some 0 := by decide +kernel

/-- L2.5 row 2, and 44_compare_random.md R214. -/
theorem test_le : x4After (.le x4 v1 v2) (sv s7 63 63) = some 1 ∧ x4After (.le x4 v1 v2) (sv s7 63 (-1)) = some 0 := by decide +kernel

/-- L2.5 row 4. -/
theorem test_gt : x4After (.gt x4 v1 v2) (sv (inst 32 false 2) 0x80000000 1) = some 1 := by decide +kernel

/-- L2.5 row 2, and 44_compare_random.md R216. -/
theorem test_ge : x4After (.ge x4 v1 v2) (sv s7 (-64) 63) = some 0 ∧ x4After (.ge x4 v1 v2) (sv s7 5 5) = some 1 := by decide +kernel

/-- L2.5 row 6: RAND with the draws 17, -64 and 63. -/
theorem test_rand_draws : ((State.reset.randWith v4 17).vval v4, (State.reset.randWith v4 (-64)).vval v4, (State.reset.randWith v4 63).vval v4)
    = (17, -64, 63) := by decide +kernel

/-- 44_compare_random.md R219: each RAND takes exactly one draw, and 60_exceptions.md R231: it completes. -/
theorem test_rand_takes_one_draw : after (exec (.rand v4) State.reset) (fun t => (t.draws, t.csi, t.stat)) = some (1, 1, 0) := by
  rfl

/-! The host port and the halt (95_test_vectors.md L2.6 and P2). -/

/-- L2.6 row 1: the word 0 raises IllegalCommand. -/
theorem test_illegal_word_faults : after (step (host State.reset (.issue 0))) (fun t => (t.stat, t.faultCmd, t.csi)) = some (0x38, 0, 0) := by
  decide +kernel

/-- L2.6 row 5. -/
theorem test_halted_refuses : step (host halted (.issue 0x30400000)) = .next { halted with response := .refused } := rfl

/-- P2: `STAT` is 0x33 in the halt and 0x23 after ACK, and FAULTCMD keeps the word. -/
theorem test_ack : halted.stat = 0x33 ∧ after (step (host halted .ack)) (fun t => (t.stat, t.faultCmd)) = some (0x23, 0x35310000) := by
  decide +kernel

/-- L2.6 row 7. -/
theorem test_ack_running : step (host State.reset .ack) = .next State.reset := rfl

/-- L2.6 row 9. -/
theorem test_reset_keeps_store :
    after (step (host { sm s7 5 6 1 2 3 with stat := 0x33, csi := 9, faultCmd := 1 } .reset))
        (fun t => (Memory.readWord t.mem 0, Memory.readWord t.mem 1, t.getX x1, t.stat, t.csi, t.faultCmd))
      = some (5, 6, 0, 0, 0, 0) := by decide +kernel

/-- L2.6 rows 10 and 11. -/
theorem test_config : configWord s7 = 0x0000000200000087 ∧ configWord (inst 64 false 1) = 0x0000000100000040 := by decide +kernel

/-- P2: a run that faults stops at the faulting command, with CSI its index and FAULTCMD its word. -/
theorem test_stream_faults : (runStream [0x16000000, 0x37100000, 0x35310000, 0x30400000] State.reset).1 = .faulted
    ∧ (runStream [0x16000000, 0x37100000, 0x35310000, 0x30400000] State.reset).2.csi = 2 := by decide +kernel

/-- 60_exceptions.md R250, R251: the port writes a store word, and refuses one outside the store. -/
theorem test_store_port : after (step (host State.reset (.writeStore 1 7))) (fun t => Memory.readWord t.mem 1) = some 7
    ∧ step (host State.reset (.writeStore 2 7)) = .next { State.reset with response := .refused }
    ∧ after (step (host (sm s7 5 6 0 0 0) (.readStore 1))) (fun t => t.response) = some (.value64 6) :=
  ⟨by decide +kernel, rfl, by decide +kernel⟩

/-- 20_memory.md R51: the two byte views of one store word. -/
theorem test_byte_views : (sm s7 0x0123456789ABCDEF 0 0 0 0).hostByte 0 0 = 0xEF
    ∧ (sm { s7 with hostByteOrder := .big } 0x0123456789ABCDEF 0 0 0 0).hostByte 0 0 = 0x01 := by decide +kernel

/-! The assembler (30_encoding.md R83, R84). -/

/-- The words of a line. -/
def asm (line : String) : Option (List Cmd) :=
  match assembleLine line.toList with
  | .ok is => some (is.map encode)
  | .error _ => none

theorem test_asm_line : asm "  decode x4, x2, x3, #7 ; the field" = some [0x20423007] ∧ asm "XLI x1, #-4096" = some [0x011FF000] := by
  decide +kernel
theorem test_asm_pseudo : asm "LIV v1, x3, #0x3A" = some [0x0130003A, 0x10130000] ∧ asm "DUP v1, v2" = some [0x15120000] := by
  decide +kernel
theorem test_asm_rejects : asm "ADD x1, v2, v3" = none ∧ asm "XLI x1, #524288" = none ∧ asm "DECODE x1, x2, x3, #128" = none := by
  decide +kernel

/-! Witnesses: for each obligation with hypotheses, a state and operands that meet them together, at the boundaries of each clause. -/

theorem witness_WellFormedCommandDecodesFromItsWord :
    (Instr.xli x1 (-524288)).wellFormed = true ∧ (Instr.xli x1 524287).wellFormed = true
      ∧ (Instr.decode x1 x2 x3 127).wellFormed = true ∧ (Instr.encode x1 x2 x3 0).wellFormed = true ∧ (Instr.add v1 v2 v4).wellFormed = true := by
  decide +kernel

theorem witness_LegalWordIsTheWordOfItsCommand :
    decode 0x21123040 = .ok (.encode x1 x2 x3 64) := by
  decide +kernel

theorem witness_MustBeZeroBitRaisesIllegalCommand :
    (host State.reset (.issue 0x22123001)).inbox = [.issue 0x22123001] ∧ statFaulted (host State.reset (.issue 0x22123001)).stat = false
      ∧ ∃ row ∈ opcodeRows, (0x22123001 : Cmd).extractLsb' 24 8 = row.bits.extractLsb' 24 8
          ∧ row.mask.getLsbD 0 = true ∧ (0x22123001 : Cmd).getLsbD 0 = true := by
  decide +kernel

theorem witness_MustBeZeroBitRaisesIllegalCommand_highestBit :
    (host State.reset (.issue 0x14080000)).inbox = [.issue 0x14080000] ∧ statFaulted (host State.reset (.issue 0x14080000)).stat = false
      ∧ ∃ row ∈ opcodeRows, (0x14080000 : Cmd).extractLsb' 24 8 = row.bits.extractLsb' 24 8
          ∧ row.mask.getLsbD 19 = true ∧ (0x14080000 : Cmd).getLsbD 19 = true := by
  decide +kernel

theorem witness_UnassignedOpcodeRaisesIllegalCommand :
    (host State.reset (.issue 0)).inbox = [.issue 0] ∧ statFaulted (host State.reset (.issue 0)).stat = false
      ∧ (∀ o ∈ [0x00, 0x02, 0x0F, 0x18, 0x1F, 0x24, 0x2F, 0x3C, 0x3F, 0x49, 0x4F, 0x57, 0x5F, 0x61, 0xFF],
          ((BitVec.ofNat 8 o ++ 0#24).extractLsb' 24 8).toNat = o
            ∧ (o = 0x00 ∨ (0x02 ≤ o ∧ o ≤ 0x0F) ∨ (0x18 ≤ o ∧ o ≤ 0x1F) ∨ (0x24 ≤ o ∧ o ≤ 0x2F) ∨ (0x3C ≤ o ∧ o ≤ 0x3F)
              ∨ (0x49 ≤ o ∧ o ≤ 0x4F) ∨ (0x57 ≤ o ∧ o ≤ 0x5F) ∨ 0x61 ≤ o)) := by
  decide +kernel

theorem witness_StepExecutesTheDecodedCommand :
    (host (sv s7 63 1) (.issue 0x30412000)).inbox = [.issue 0x30412000] ∧ statFaulted (host (sv s7 63 1) (.issue 0x30412000)).stat = false
      ∧ decode 0x30412000 = .ok (.add v4 v1 v2) := by
  decide +kernel

theorem witness_HaltedUnitAcceptsNoWord :
    (host halted (.issue 0x30400000)).inbox = [.issue 0x30400000] ∧ statFaulted (host halted (.issue 0x30400000)).stat = true := by
  decide +kernel

theorem witness_AckClearsFaultedAlone :
    (host halted .ack).inbox = [.ack] ∧ statFaulted (host halted .ack).stat = true
      ∧ (host State.reset .ack).inbox = [.ack] ∧ statFaulted (host State.reset .ack).stat = false := by
  decide +kernel

theorem witness_PowerOnAndResetValues :
    (host halted .reset).inbox = [.reset] := by
  decide +kernel

theorem witness_PowerOnStateIsLegal :
    (inst 1 true 1).wf = true ∧ Memory.wf [(0, 1), (7, 0x80)] = true ∧ Memory.below [(0, 1), (7, 0x80)] (8 * (inst 1 true 1).nwords) = true
      ∧ (inst 64 false (2 ^ 32 - 1)).wf = true := by
  decide +kernel

theorem witness_EveryStepKeepsTheStateLegal :
    LegalState (host (sv s7 63 1) (.issue 0x30412000))
      ∧ after (step (host (sv s7 63 1) (.issue 0x30412000))) (fun t => t.vval v4) = some (-64) := by
  decide +kernel

/-- The hypotheses of EveryStepKeepsTheStateLegal and ValueRegistersAreCanonical, with a command that faults. -/
theorem witness_ValueRegistersAreCanonical :
    (inst 1 true 1).wf = true ∧ LegalState (host (sv s7 (-64) 0) (.issue 0x35310000)) ∧ ∃ t, step (host (sv s7 (-64) 0) (.issue 0x35310000)) = .next t := 
  ⟨by decide +kernel, by decide +kernel, _, rfl⟩

theorem witness_EveryStepAnswersANextState :
    State.reset.inbox = [] := by
  decide +kernel

theorem witness_ErrSeenIsClearedOnlyByReset :
    statErrSeen (host halted .ack).stat = true ∧ (∀ rest, (host halted .ack).inbox ≠ .reset :: rest)
      ∧ ∃ t, step (host halted .ack) = .next t := 
  ⟨by decide, by simp [host], _, rfl⟩

theorem witness_ConfigurationIsConstant :
    ∃ t, step (host State.reset (.writeX x1 5)) = .next t := ⟨_, rfl⟩

theorem witness_HaltIsEnteredByAWordAndLeftByAckOrReset :
    (statFaulted (host (sv s7 (-64) 0) (.issue 0x35310000)).stat = false
        ∧ after (step (host (sv s7 (-64) 0) (.issue 0x35310000))) (fun t => statFaulted t.stat) = some true)
      ∧ statFaulted (host halted .ack).stat = true ∧ after (step (host halted .ack)) (fun t => statFaulted t.stat) = some false
      ∧ statFaulted (host halted .reset).stat = true ∧ after (step (host halted .reset)) (fun t => statFaulted t.stat) = some false := by
  decide +kernel

/-- The clauses of CsiCountsCompletedCommands: a running unit with a word, a reset, and neither (a read, and a word at a halted unit). -/
theorem witness_CsiCountsCompletedCommands :
    ((host State.reset (.issue 0x14300000)).inbox = [.issue 0x14300000] ∧ statFaulted (host State.reset (.issue 0x14300000)).stat = false)
      ∧ (host halted .reset).inbox = [.reset]
      ∧ ((∀ cmd rest, (host halted (.issue 0)).inbox = .issue cmd :: rest → statFaulted (host halted (.issue 0)).stat = true)
        ∧ ∀ rest, (host halted (.issue 0)).inbox ≠ .reset :: rest)
      ∧ (∀ cmd rest, (host State.reset .readStat).inbox ≠ .issue cmd :: rest) ∧ ∀ rest, (host State.reset .readStat).inbox ≠ .reset :: rest := 
  ⟨by decide, rfl, ⟨fun _ _ _ => by decide, by simp [host]⟩, by simp [host], by simp [host]⟩

theorem witness_PortReadsReturnTheStateUnchanged :
    (host State.reset (.readX ⟨15⟩)).inbox = [.readX ⟨15⟩] ∧ (host State.reset .readStat).inbox = [.readStat]
      ∧ (host State.reset .readConfig).inbox = [.readConfig] ∧ (host State.reset .readFaultCmd).inbox = [.readFaultCmd]
      ∧ (host State.reset .readCSI).inbox = [.readCSI] ∧ (host State.reset (.readStore 1)).inbox = [.readStore 1] ∧ 1 < State.reset.cfg.nwords := by
  decide +kernel

theorem witness_PortWritesAreExact :
    (LegalState (host State.reset (.writeX x1 5)) ∧ (host State.reset (.writeX x1 5)).inbox = [.writeX x1 5])
      ∧ (LegalState (host State.reset (.writeStore 1 5)) ∧ (host State.reset (.writeStore 1 5)).inbox = [.writeStore 1 5]
        ∧ 1 < State.reset.cfg.nwords)
      ∧ (LegalState (host State.reset (.writeStore 2 5)) ∧ (host State.reset (.writeStore 2 5)).inbox = [.writeStore 2 5]
        ∧ State.reset.cfg.nwords ≤ 2)
      ∧ LegalState (host State.reset (.readStore 2)) ∧ (host State.reset (.readStore 2)).inbox = [.readStore 2] := by
  decide +kernel

theorem witness_ConfigRegisterFields :
    (inst 1 true 1).wf = true ∧ (inst 64 false (2 ^ 32 - 1)).wf = true
      ∧ s7.wf = true ∧ (host State.reset .readConfig).cfg = s7 ∧ ∃ t, step (host State.reset .readConfig) = .next t := 
  ⟨by decide +kernel, by decide +kernel, by decide +kernel, rfl, _, rfl⟩

theorem witness_StreamEndsCompletedFaultedOrRefused :
    statFaulted State.reset.stat = false ∧ (runStream [0x16000000, 0x37100000] State.reset).1 = .completed
      ∧ (runStream [0x16000000, 0] State.reset).1 = .faulted ∧ statFaulted halted.stat = true := by
  decide +kernel

/-- One command and state for each code that a command can raise. -/
theorem witness_CommandsRaiseOnlyTheirCodes :
    s7.wf = true
      ∧ (∃ t, exec (.decode x1 x2 x3 0) (State.reset) = .next t ∧ Raises .invalidWidth (encode (.decode x1 x2 x3 0)) (State.reset) t)
      ∧ (∃ t, exec (.stv v1 x2 x3) (sm s7 0 0 0 0 64) = .next t ∧ Raises .invalidOffset (encode (.stv v1 x2 x3)) (sm s7 0 0 0 0 64) t)
      ∧ (∃ t, exec (.neg v4 v1) (sv s7 (-64) 0) = .next t ∧ Raises .arithmeticOverflow (encode (.neg v4 v1)) (sv s7 (-64) 0) t)
      ∧ (∃ t, exec (.pow v4 v1 v2) (sv s7 0 0) = .next t ∧ Raises .invalidOperation (encode (.pow v4 v1 v2)) (sv s7 0 0) t)
      ∧ (∃ t, exec (.setchk v4 x1) (sx s7 64) = .next t ∧ Raises .parseOverflow (encode (.setchk v4 x1)) (sx s7 64) t)
      ∧ (∃ t, exec (.mod v4 v1 v2) (sv s7 5 0) = .next t ∧ Raises .divisionByZero (encode (.mod v4 v1 v2)) (sv s7 5 0) t)
      ∧ (∃ t, exec (.ldv v4 x2 x3) (sm s7 0 0 0 2 0) = .next t ∧ Raises .storeBounds (encode (.ldv v4 x2 x3)) (sm s7 0 0 0 2 0) t) := 
  ⟨by decide, ⟨_, rfl, raises _ _ _⟩, ⟨_, rfl, raises _ _ _⟩, ⟨_, rfl, raises _ _ _⟩, ⟨_, rfl, raises _ _ _⟩, ⟨_, rfl, raises _ _ _⟩, ⟨_, rfl, raises _ _ _⟩, ⟨_, rfl, raises _ _ _⟩⟩

theorem witness_CommandsWriteOnlyTheirDestination :
    (∃ t, exec (.add v4 v1 v2) (sv s7 63 1) = .next t) ∧ destV (.add v4 v1 v2) ≠ some v1 ∧ destX (.add v4 v1 v2) ≠ some x1
      ∧ writesStore (.add v4 v1 v2) = false := ⟨⟨_, rfl⟩, by decide, by decide, by decide⟩

theorem witness_XliLoadsTheSignExtendedImmediate :
    (-524288 : Int) ≤ -524288 ∧ (-524288 : Int) ≤ 524287 ∧ (-524288 : Int) ≤ 524287 ∧ (524287 : Int) ≤ 524287 := by
  decide +kernel

/-- The states of SetrawNormalizes, AddSubMulWrap, SuccPredWrap, MaxbAndMinbLoadTheBounds and RandWritesAFreeDraw. -/
theorem witness_LegalInstances :
    (sx s7 65).cfg.wf = true ∧ (sv s7 63 1).cfg.wf = true ∧ (sv (inst 1 true 1) (-1) 0).cfg.wf = true ∧ (sv (inst 64 false 1) 0 1).cfg.wf = true := by
  decide +kernel

/-- The states of GetAndTobfReadAValueRegister, NormalizationLaws and BitwiseCommandsWorkOnPatterns. -/
theorem witness_LegalStates :
    LegalState (sv s7 (-63) 5) ∧ LegalState (sv u7 127 0) ∧ LegalState (sv (inst 1 true 1) (-1) 0) ∧ LegalState (sv (inst 64 true 1) (-1) 0) := by
  decide +kernel

theorem witness_SetchkSetsOrRaisesParseOverflow :
    s7.wf = true
      ∧ (-64 = ((sx s7 0xFFFFFFFFFFFFFFC0).getX x1).toInt) ∧ minv s7 ≤ -64 ∧ -64 ≤ maxv s7
      ∧ (63 = ((sx s7 63).getX x1).toInt) ∧ minv s7 ≤ 63 ∧ 63 ≤ maxv s7
      ∧ (64 = ((sx s7 64).getX x1).toInt) ∧ maxv s7 < 64
      ∧ (-65 = ((sx s7 0xFFFFFFFFFFFFFFBF).getX x1).toInt) ∧ -65 < minv s7
      ∧ u7.wf = true ∧ ((127 : Int) = ((sx u7 127).getX x1).toNat) ∧ 127 ≤ maxv u7 ∧ ((128 : Int) = ((sx u7 128).getX x1).toNat) ∧ maxv u7 < 128 := by
  decide +kernel

/-- The hypotheses of DecodeReadsTheField, EncodeStoresTheField and CodecRoundTrip: the last word, one and two words, width 64. -/
theorem witness_RawCodecGeometry :
    LegalState (sm s7 0 0 5 1 57) ∧ GeometryOk s7 7 ((sm s7 0 0 5 1 57).getX x3).toNat ((sm s7 0 0 5 1 57).getX x2).toNat
      ∧ LegalState (sm s7 0 0 5 0 63) ∧ GeometryOk s7 64 ((sm s7 0 0 5 0 63).getX x3).toNat ((sm s7 0 0 5 0 63).getX x2).toNat
      ∧ GeometryOk s7 1 63 1 := by
  unfold GeometryOk; decide +kernel

/-- The hypotheses of LdvLoadsTheField, StvStoresTheField and CodecRoundTrip at width N. -/
theorem witness_ValueCodecGeometry :
    LegalState (sm s7 0 0 5 0 58)
      ∧ GeometryOk s7 (sm s7 0 0 5 0 58).cfg.n ((sm s7 0 0 5 0 58).getX x3).toNat ((sm s7 0 0 5 0 58).getX x2).toNat := by
  unfold GeometryOk; decide +kernel

/-- The three clauses of RawCodecReportsTheFirstFailingCheck at their boundaries. -/
theorem witness_RawCodecReportsTheFirstFailingCheck :
    ((0 : Nat) < 1 ∧ 64 < (65 : Nat))
      ∧ (1 ≤ 7 ∧ 7 ≤ 64 ∧ 63 < ((sm s7 0 0 0 2 64).getX x3).toNat)
      ∧ (((sm s7 0 0 0 2 0).getX x3).toNat ≤ 63 ∧ s7.nwords ≤ ((sm s7 0 0 0 2 0).getX x2).toNat)
      ∧ ((sm s7 0 0 0 1 58).getX x3).toNat ≤ 63 ∧ 64 < ((sm s7 0 0 0 1 58).getX x3).toNat + 7
      ∧ s7.nwords ≤ ((sm s7 0 0 0 1 58).getX x2).toNat + 1 := by
  decide +kernel

theorem witness_ValueCodecReportsTheFirstFailingCheck :
    s7.wf = true ∧ 63 < ((sm s7 0 0 0 2 64).getX x3).toNat
      ∧ (((sm s7 0 0 0 2 0).getX x3).toNat ≤ 63 ∧ s7.nwords ≤ ((sm s7 0 0 0 2 0).getX x2).toNat)
      ∧ ((sm s7 0 0 0 1 58).getX x3).toNat ≤ 63 ∧ 64 < ((sm s7 0 0 0 1 58).getX x3).toNat + s7.n
      ∧ s7.nwords ≤ ((sm s7 0 0 0 1 58).getX x2).toNat + 1 := by
  decide +kernel

theorem witness_CodecIgnoresSignedness :
    (∃ t, exec (.decode x1 x2 x3 7) (sm s7 0 0 5 0 58) = .next t) ∧ (∃ t, exec (.encode x1 x2 x3 7) (sm s7 0 0 5 0 58) = .next t)
      ∧ (∃ t, exec (.ldv v1 x2 x3) (sm s7 0 0 5 0 58) = .next t) ∧ ∃ t, exec (.stv v1 x2 x3) (sm s7 0 0 5 0 58) = .next t := ⟨⟨_, rfl⟩, ⟨_, rfl⟩, ⟨_, rfl⟩, _, rfl⟩

theorem witness_DivModTruncate :
    LegalState (sv s7 (-64) 1) ∧ (sv s7 (-64) 1).vval v2 ≠ 0
      ∧ ¬ ((sv s7 (-64) 1).cfg.signed = true ∧ (sv s7 (-64) 1).vval v1 = minv s7 ∧ (sv s7 (-64) 1).vval v2 = -1) := by
  decide +kernel

theorem witness_DivModFault :
    (sv s7 5 0).vval v2 = 0
      ∧ (sv s7 (-64) (-1)).cfg.signed = true ∧ (sv s7 (-64) (-1)).vval v1 = minv s7 ∧ (sv s7 (-64) (-1)).vval v2 = -1 := by
  decide +kernel

theorem witness_NegAbsRaiseOnlyOnSignedMinv :
    s7.wf = true ∧ (s7.signed = true ∧ (sv s7 (-64) 0).vval v1 = minv s7)
      ∧ ¬ (s7.signed = true ∧ (sv s7 (-63) 0).vval v1 = minv s7) ∧ u7.wf = true ∧ ¬ (u7.signed = true ∧ (sv u7 0 0).vval v1 = minv u7) := by
  decide +kernel

theorem witness_GcdIsTheGreatestCommonDivisor :
    (LegalState (sv s7 (-64) 0) ∧ s7.signed = true ∧ (sv s7 (-64) 0).vval v1 = minv s7 ∧ (sv s7 (-64) 0).vval v2 = 0)
      ∧ (LegalState (sv s7 (-64) (-64)) ∧ (sv s7 (-64) (-64)).vval v1 = minv s7 ∧ (sv s7 (-64) (-64)).vval v2 = minv s7)
      ∧ (LegalState (sv s7 (-64) 2) ∧ (sv s7 (-64) 2).vval v2 ≠ 0 ∧ (sv s7 (-64) 2).vval v2 ≠ minv s7) := by
  decide +kernel

theorem witness_LcmIsTheLeastCommonMultiple :
    s7.wf = true ∧ maxv s7 < Int.lcm ((sv s7 (-64) 1).vval v1) ((sv s7 (-64) 1).vval v2)
      ∧ (Int.lcm ((sv s7 63 1).vval v1) ((sv s7 63 1).vval v2) : Int) ≤ maxv s7 := by
  decide +kernel

theorem witness_PowWrapsTheExactPower :
    s7.wf = true ∧ ((sv s7 0 0).vval v1 = 0 ∧ (sv s7 0 0).vval v2 = 0) ∧ (sv s7 2 (-1)).vval v2 < 0
      ∧ ¬ ((sv s7 (-1) 0).vval v1 = 0 ∧ (sv s7 (-1) 0).vval v2 = 0) ∧ 0 ≤ (sv s7 (-1) 0).vval v2 := by
  decide +kernel

theorem witness_WraparoundLaws :
    (LegalState (sv s7 63 0) ∧ s7.signed = true ∧ (sv s7 63 0).vval v1 = 2 ^ (s7.n - 1) - 1)
      ∧ (LegalState (sv s7 (-64) 0) ∧ (sv s7 (-64) 0).vval v1 = -2 ^ (s7.n - 1))
      ∧ (LegalState (sv u7 127 0) ∧ u7.signed = false ∧ (sv u7 127 0).vval v1 = 2 ^ u7.n - 1)
      ∧ LegalState (sv u7 0 0) ∧ (sv u7 0 0).vval v1 = 0 := by
  decide +kernel

theorem witness_OverflowDetectionLaws :
    s7.signed = true ∧ (sv s7 (-64) (-1)).vval v1 = -2 ^ (s7.n - 1) ∧ (sv s7 (-64) (-1)).vval v2 = -1
      ∧ (sv (inst 32 true 1) (-2 ^ 31) (-1)).vval v1 = -2 ^ ((inst 32 true 1).n - 1) := by
  decide +kernel

/-- Counts of the shift and rotate statements (ShlShiftsModuloTheWidth to RotatesMoveBitsModuloTheWidth): 0, N, the greatest and the least. -/
theorem witness_ShiftCounts :
    (LegalState (sk s7 5 0) ∧ 0 = ((sk s7 5 0).getX x3).toInt) ∧ (LegalState (sk s7 5 7) ∧ 7 = ((sk s7 5 7).getX x3).toInt)
      ∧ (LegalState (sk s7 (-5) 0x7FFFFFFFFFFFFFFF) ∧ 2 ^ 63 - 1 = ((sk s7 (-5) 0x7FFFFFFFFFFFFFFF).getX x3).toInt)
      ∧ (LegalState (sk s7 (-5) 0x8000000000000000) ∧ -2 ^ 63 = ((sk s7 (-5) 0x8000000000000000).getX x3).toInt)
      ∧ LegalState (sk u7 5 (-1)) ∧ -1 = ((sk u7 5 (-1)).getX x3).toInt ∧ (sk u7 5 (-1)).cfg.signed = false := by
  decide +kernel

theorem witness_ShiftLaws :
    (LegalState (sk s7 5 7) ∧ ((sk s7 5 7).getX x3).toInt = (sk s7 5 7).cfg.n) ∧ (LegalState (sk s7 5 0) ∧ ((sk s7 5 0).getX x3).toInt = 0)
      ∧ (sk u7 100 2).cfg.signed = false := by
  decide +kernel

theorem witness_RandWritesAFreeDraw :
    s7.wf = true ∧ minv s7 ≤ -64 ∧ -64 ≤ maxv s7 ∧ minv s7 ≤ 63 ∧ 63 ≤ maxv s7
      ∧ (sv s7 5 6).cfg = State.reset.cfg ∧ (sv s7 5 6).draws = State.reset.draws ∧ ∃ t, exec (.rand v1) (sv s7 5 6) = .next t := ⟨by decide, by decide, by decide, by decide, by decide, rfl, rfl, _, rfl⟩

end Sys2Proof.Tests
end

section
/-! The build-time parameters are constant (00_scope.md R5 to R7, 10_state.md R30): each layer of the step, from the end of a command up to
`step`, keeps `cfg`. -/

namespace Sys2Proof.Machine

/-- No end of a command writes the parameters. -/
theorem Ending.cfg_eq {i : Instr} {s t : State} (h : Ending i s t) : t.cfg = s.cfg := by
  cases h with
  | x d p _ => exact State.cfg_completeX s d p
  | v d p _ _ => exact State.cfg_completeV s d p
  | store idx off w data _ _ => rw [State.cfg_complete, State.cfg_setMem]
  | rand d r _ => rw [State.randWith, State.cfg_completeV, State.cfg_takeDraw]
  | fault code _ _ => exact State.cfg_raise s code _

theorem exec_keeps_cfg {i : Instr} {s t : State} (h : exec i s = .next t) : t.cfg = s.cfg := by
  obtain ⟨u, hu, hend⟩ := exec_ending i s
  cases hu.symm.trans h
  exact hend.cfg_eq

theorem issue_keeps_cfg {cmd : Cmd} {s t : State} (h : issue cmd s = .next t) : t.cfg = s.cfg := by
  obtain ⟨-, hu⟩ | ⟨-, -, hu⟩ | ⟨-, i, -, hu⟩ := issue_cases cmd s
  · cases hu.symm.trans h
    exact State.cfg_respond s .refused
  · cases hu.symm.trans h
    exact State.cfg_raise s .illegalCommand cmd
  · exact exec_keeps_cfg (hu.symm.trans h)

@[simp] theorem cfg_hostReadStore (w : Nat) (s : State) : (hostReadStore w s).cfg = s.cfg := by
  unfold hostReadStore
  split <;> exact State.cfg_respond s _

@[simp] theorem cfg_hostWriteStore (w : Nat) (p : Word) (s : State) : (hostWriteStore w p s).cfg = s.cfg := by
  unfold hostWriteStore
  split
  · exact State.cfg_setMem s _
  · exact State.cfg_respond s _

theorem perform_keeps_cfg {act : HostAction} {s t : State} (h : perform act s = .next t) : t.cfg = s.cfg := by
  cases act with
  | issue cmd => exact issue_keeps_cfg h
  | writeX r p => cases h; exact State.cfg_setX s r p
  | readX => cases h; exact State.cfg_respond s _
  | readStat => cases h; exact State.cfg_respond s _
  | readConfig => cases h; exact State.cfg_respond s _
  | readFaultCmd => cases h; exact State.cfg_respond s _
  | readCSI => cases h; exact State.cfg_respond s _
  | ack => cases h; exact State.cfg_ack s
  | readStore w => cases h; exact cfg_hostReadStore w s
  | writeStore w p => cases h; exact cfg_hostWriteStore w p s
  | reset => cases h; exact State.cfg_hostReset s

theorem step_keeps_cfg {s t : State} (h : step s = .next t) : t.cfg = s.cfg := by
  cases hq : s.inbox with
  | nil =>
    cases (step_idle s hq).symm.trans h
    rfl
  | cons act rest =>
    have hp : perform act (s.take rest) = .next t := (step_perform s act rest hq).symm.trans h
    exact (perform_keeps_cfg hp).trans (State.cfg_take s rest)

/-- Settles O16: the parameters are kept by `step_keeps_cfg`, and CONFIG is a function of them. -/
theorem configurationIsConstant : Obligations.ConfigurationIsConstant := by
  intro s t h
  have hcfg : t.cfg = s.cfg := step_keeps_cfg h
  exact ⟨hcfg, congrArg configWord hcfg⟩

end Sys2Proof.Machine
end

section
/-! A word that decodes is the word of its command (30_encoding.md R72 to R79): the bits that a row's mask fixes are the row's own, and the
encoder puts the fields back where the decoder reads them. FAULTCMD, which holds the issued word, rests on this (log 9). -/

namespace Sys2Proof

/-- The opcode and the register fields of a word, put together, are its 20 high bits. -/
theorem opcode_append_fields (cmd : Cmd) :
    cmd.extractLsb' 24 8 ++ (fieldsOf cmd).d ++ (fieldsOf cmd).a ++ (fieldsOf cmd).b = cmd.extractLsb' 12 20 := by
  simp only [fieldsOf]
  rw [BitVec.extractLsb'_append_extractLsb'_eq_extractLsb' (show 24 = 20 + 4 from rfl),
    BitVec.extractLsb'_append_extractLsb'_eq_extractLsb' (show 20 = 16 + 4 from rfl),
    BitVec.extractLsb'_append_extractLsb'_eq_extractLsb' (show 16 = 12 + 4 from rfl)]

/-- Format R gives the word back when its 12 low bits are 0. -/
theorem formatR_fieldsOf {cmd : Cmd} (hlo : cmd.extractLsb' 0 12 = 0#12) :
    formatR (cmd.extractLsb' 24 8) (fieldsOf cmd).d (fieldsOf cmd).a (fieldsOf cmd).b = cmd := by
  rw [formatR, opcode_append_fields, ← hlo, BitVec.extractLsb'_append_extractLsb'_eq_extractLsb' (show 12 = 0 + 12 from rfl)]
  exact BitVec.extractLsb'_eq_self

/-- Format C gives the word back when bits 11..7 are 0. -/
theorem formatC_fieldsOf {cmd : Cmd} (hlo : cmd.extractLsb' 7 5 = 0#5) :
    formatC (cmd.extractLsb' 24 8) (fieldsOf cmd).d (fieldsOf cmd).a (fieldsOf cmd).b (fieldsOf cmd).w = cmd := by
  have hw : BitVec.ofNat 7 (fieldsOf cmd).w = cmd.extractLsb' 0 7 := BitVec.ofNat_toNat 7 _
  rw [formatC, opcode_append_fields, hw, ← hlo, BitVec.extractLsb'_append_extractLsb'_eq_extractLsb' (show 12 = 7 + 5 from rfl),
    BitVec.extractLsb'_append_extractLsb'_eq_extractLsb' (show 7 = 0 + 7 from rfl)]
  exact BitVec.extractLsb'_eq_self

/-- Format XI gives every word back. -/
theorem formatXI_fieldsOf (cmd : Cmd) : formatXI (cmd.extractLsb' 24 8) (fieldsOf cmd).d (fieldsOf cmd).imm = cmd := by
  have himm : BitVec.ofInt 20 (fieldsOf cmd).imm = cmd.extractLsb' 0 20 := BitVec.ofInt_toInt
  have hd : (fieldsOf cmd).d = cmd.extractLsb' 20 4 := rfl
  rw [formatXI, himm, hd, BitVec.extractLsb'_append_extractLsb'_eq_extractLsb' (show 24 = 20 + 4 from rfl),
    BitVec.extractLsb'_append_extractLsb'_eq_extractLsb' (show 20 = 0 + 20 from rfl)]
  exact BitVec.extractLsb'_eq_self

/-- Where a row's mask is all ones, a word it selects has the row's bits. -/
theorem Row.extract_of_selects {r : Row} {cmd : Cmd} (h : r.selects cmd = true) (start len : Nat)
    (hm : r.mask.extractLsb' start len = BitVec.allOnes len) : cmd.extractLsb' start len = r.bits.extractLsb' start len := by
  have hsel : cmd &&& r.mask = r.bits := by simpa [Row.selects] using h
  rw [← hsel, BitVec.extractLsb'_and, hm, BitVec.and_allOnes]

/-- The encoder gives back every word that the row selects. -/
def Row.EncodesBack (r : Row) : Prop := ∀ cmd : Cmd, r.selects cmd = true → encode (r.build (fieldsOf cmd)) = cmd

section
variable {r : Row} (opc : BitVec 8) (hbits : r.bits = (opc ++ 0#24 : Cmd)) {cmd : Cmd} (h : r.selects cmd = true)
include hbits h

/-- A selected word has the row's opcode. -/
theorem Row.opcode_of_bits (hm : r.mask.extractLsb' 24 8 = BitVec.allOnes 8) : cmd.extractLsb' 24 8 = opc := by
  rw [Row.extract_of_selects h 24 8 hm, hbits, BitVec.extractLsb'_append_eq_left]

/-- A selected word is 0 where the mask is all ones below the opcode (30_encoding.md R79). -/
theorem Row.zero_of_bits (start len : Nat) (hle : start + len ≤ 24) (hm : r.mask.extractLsb' start len = BitVec.allOnes len) :
    cmd.extractLsb' start len = 0#len := by
  rw [Row.extract_of_selects h start len hm, hbits, BitVec.extractLsb'_append_eq_of_add_le hle, BitVec.extractLsb'_zero]

end

section
variable {r : Row} (opc : BitVec 8) (hbits : r.bits = (opc ++ 0#24 : Cmd))
include hbits

/-- The rows of format R with the fields D, A and B. -/
theorem Row.encodesBack_dab (hmask : r.mask = 0xFF000FFF) (hb : ∀ f, encode (r.build f) = formatR opc f.d f.a f.b) :
    r.EncodesBack := by
  intro cmd h
  have hopc : cmd.extractLsb' 24 8 = opc := Row.opcode_of_bits opc hbits h (by rw [hmask]; decide)
  have hlo : cmd.extractLsb' 0 12 = 0#12 := Row.zero_of_bits opc hbits h 0 12 (by omega) (by rw [hmask]; decide)
  rw [hb, ← hopc, formatR_fieldsOf hlo]

/-- The rows of format R with the fields D and A. -/
theorem Row.encodesBack_da (hmask : r.mask = 0xFF00FFFF) (hb : ∀ f, encode (r.build f) = formatR opc f.d f.a 0#4) :
    r.EncodesBack := by
  intro cmd h
  have hopc : cmd.extractLsb' 24 8 = opc := Row.opcode_of_bits opc hbits h (by rw [hmask]; decide)
  have hB : (fieldsOf cmd).b = 0#4 := Row.zero_of_bits opc hbits h 12 4 (by omega) (by rw [hmask]; decide)
  have hlo : cmd.extractLsb' 0 12 = 0#12 := Row.zero_of_bits opc hbits h 0 12 (by omega) (by rw [hmask]; decide)
  rw [hb, ← hopc, ← hB, formatR_fieldsOf hlo]

/-- The rows of format R with the field D alone. -/
theorem Row.encodesBack_d (hmask : r.mask = 0xFF0FFFFF) (hb : ∀ f, encode (r.build f) = formatR opc f.d 0#4 0#4) :
    r.EncodesBack := by
  intro cmd h
  have hopc : cmd.extractLsb' 24 8 = opc := Row.opcode_of_bits opc hbits h (by rw [hmask]; decide)
  have hA : (fieldsOf cmd).a = 0#4 := Row.zero_of_bits opc hbits h 16 4 (by omega) (by rw [hmask]; decide)
  have hB : (fieldsOf cmd).b = 0#4 := Row.zero_of_bits opc hbits h 12 4 (by omega) (by rw [hmask]; decide)
  have hlo : cmd.extractLsb' 0 12 = 0#12 := Row.zero_of_bits opc hbits h 0 12 (by omega) (by rw [hmask]; decide)
  have hword := formatR_fieldsOf hlo
  rwa [hopc, hA, hB, ← hb] at hword

/-- The rows of format C with a width. -/
theorem Row.encodesBack_width (hmask : r.mask = 0xFF000F80) (hb : ∀ f, encode (r.build f) = formatC opc f.d f.a f.b f.w) :
    r.EncodesBack := by
  intro cmd h
  have hopc : cmd.extractLsb' 24 8 = opc := Row.opcode_of_bits opc hbits h (by rw [hmask]; decide)
  have hlo : cmd.extractLsb' 7 5 = 0#5 := Row.zero_of_bits opc hbits h 7 5 (by omega) (by rw [hmask]; decide)
  rw [hb, ← hopc, formatC_fieldsOf hlo]

/-- The rows of format C with no width operand, the field W 0 (40_codec.md R103, R104). -/
theorem Row.encodesBack_noWidth (hmask : r.mask = 0xFF000FFF) (hb : ∀ f, encode (r.build f) = formatC opc f.d f.a f.b 0) :
    r.EncodesBack := by
  intro cmd h
  have hopc : cmd.extractLsb' 24 8 = opc := Row.opcode_of_bits opc hbits h (by rw [hmask]; decide)
  have hlo : cmd.extractLsb' 7 5 = 0#5 := Row.zero_of_bits opc hbits h 7 5 (by omega) (by rw [hmask]; decide)
  have hW : (fieldsOf cmd).w = 0 :=
    congrArg BitVec.toNat (Row.zero_of_bits opc hbits h 0 7 (by omega) (by rw [hmask]; decide))
  rw [hb, ← hopc, ← hW, formatC_fieldsOf hlo]

/-- The row of format XI. -/
theorem Row.encodesBack_imm (hmask : r.mask = 0xFF000000) (hb : ∀ f, encode (r.build f) = formatXI opc f.d f.imm) :
    r.EncodesBack := by
  intro cmd h
  have hopc : cmd.extractLsb' 24 8 = opc := Row.opcode_of_bits opc hbits h (by rw [hmask]; decide)
  rw [hb, ← hopc, formatXI_fieldsOf]

end

/-- Every row of the table is of one of the six layouts (30_encoding.md R75, R78). -/
theorem opcodeRows_encodeBack : ∀ r ∈ opcodeRows, r.EncodesBack := by
  simp only [opcodeRows, List.forall_mem_append]
  refine ⟨⟨⟨⟨?value, ?codec⟩, ?arith⟩, ?bit⟩, ?compare⟩
  case value =>
    simp only [valueRows, List.forall_mem_cons]
    exact ⟨Row.encodesBack_imm 0x01 rfl rfl fun _ => rfl, Row.encodesBack_da 0x10 rfl rfl fun _ => rfl,
      Row.encodesBack_da 0x11 rfl rfl fun _ => rfl, Row.encodesBack_da 0x12 rfl rfl fun _ => rfl,
      Row.encodesBack_da 0x13 rfl rfl fun _ => rfl, Row.encodesBack_d 0x14 rfl rfl fun _ => rfl,
      Row.encodesBack_da 0x15 rfl rfl fun _ => rfl, Row.encodesBack_d 0x16 rfl rfl fun _ => rfl,
      Row.encodesBack_d 0x17 rfl rfl fun _ => rfl, List.forall_mem_nil _⟩
  case codec =>
    simp only [codecRows, List.forall_mem_cons]
    exact ⟨Row.encodesBack_width 0x20 rfl rfl fun _ => rfl, Row.encodesBack_width 0x21 rfl rfl fun _ => rfl,
      Row.encodesBack_noWidth 0x22 rfl rfl fun _ => rfl, Row.encodesBack_noWidth 0x23 rfl rfl fun _ => rfl, List.forall_mem_nil _⟩
  case arith =>
    simp only [arithRows, List.forall_mem_cons]
    exact ⟨Row.encodesBack_dab 0x30 rfl rfl fun _ => rfl, Row.encodesBack_dab 0x31 rfl rfl fun _ => rfl,
      Row.encodesBack_dab 0x32 rfl rfl fun _ => rfl, Row.encodesBack_dab 0x33 rfl rfl fun _ => rfl,
      Row.encodesBack_dab 0x34 rfl rfl fun _ => rfl, Row.encodesBack_da 0x35 rfl rfl fun _ => rfl,
      Row.encodesBack_da 0x36 rfl rfl fun _ => rfl, Row.encodesBack_da 0x37 rfl rfl fun _ => rfl,
      Row.encodesBack_da 0x38 rfl rfl fun _ => rfl, Row.encodesBack_dab 0x39 rfl rfl fun _ => rfl,
      Row.encodesBack_dab 0x3A rfl rfl fun _ => rfl, Row.encodesBack_dab 0x3B rfl rfl fun _ => rfl, List.forall_mem_nil _⟩
  case bit =>
    simp only [bitRows, List.forall_mem_cons]
    exact ⟨Row.encodesBack_dab 0x40 rfl rfl fun _ => rfl, Row.encodesBack_dab 0x41 rfl rfl fun _ => rfl,
      Row.encodesBack_dab 0x42 rfl rfl fun _ => rfl, Row.encodesBack_dab 0x43 rfl rfl fun _ => rfl,
      Row.encodesBack_dab 0x44 rfl rfl fun _ => rfl, Row.encodesBack_dab 0x45 rfl rfl fun _ => rfl,
      Row.encodesBack_dab 0x46 rfl rfl fun _ => rfl, Row.encodesBack_dab 0x47 rfl rfl fun _ => rfl,
      Row.encodesBack_da 0x48 rfl rfl fun _ => rfl, List.forall_mem_nil _⟩
  case compare =>
    simp only [compareRows, List.forall_mem_cons]
    exact ⟨Row.encodesBack_dab 0x50 rfl rfl fun _ => rfl, Row.encodesBack_dab 0x51 rfl rfl fun _ => rfl,
      Row.encodesBack_dab 0x52 rfl rfl fun _ => rfl, Row.encodesBack_dab 0x53 rfl rfl fun _ => rfl,
      Row.encodesBack_dab 0x54 rfl rfl fun _ => rfl, Row.encodesBack_dab 0x55 rfl rfl fun _ => rfl,
      Row.encodesBack_dab 0x56 rfl rfl fun _ => rfl, Row.encodesBack_d 0x60 rfl rfl fun _ => rfl, List.forall_mem_nil _⟩

/-- A word that decodes is the word of the command it decodes to. -/
theorem encode_of_decode {cmd : Cmd} {i : Instr} (h : decode cmd = .ok i) : encode i = cmd := by
  obtain ⟨r, hr, hsel, rfl⟩ := selects_of_decode h
  exact opcodeRows_encodeBack r hr cmd hsel

end Sys2Proof
end

section
/-! What a command can do to a unit (60_exceptions.md R231, R232): it writes at most its destination and its field of the store, and it
completes or takes a fault. -/

namespace Sys2Proof.Machine

/-- A command writes at most its own destination (10_state.md R22, R25) and, only where it stores, the store (R32). -/
theorem Ending.frame {i : Instr} {s t : State} (h : Ending i s t) :
    (∀ r, destX i ≠ some r → t.getX r = s.getX r) ∧ (∀ r, destV i ≠ some r → t.getV r = s.getV r)
      ∧ (writesStore i = false → SameStore s t) := by
  cases h with
  | x d p hd =>
    refine ⟨fun r hr => State.getX_completeX_ne s p ?_, fun r _ => State.getV_completeX s d p r,
      fun _ a => State.readByte_completeX s d p a⟩
    rintro rfl
    exact hr hd
  | v d p hd _ =>
    refine ⟨fun r _ => State.getX_completeV s d p r, fun r hr => State.getV_completeV_ne s p ?_,
      fun _ a => State.readByte_completeV s d p a⟩
    rintro rfl
    exact hr hd
  | store idx off w data hstores _ =>
    exact ⟨fun r _ => State.getX_complete _ r, fun r _ => State.getV_complete _ r,
      fun hno => nomatch hstores.symm.trans hno⟩
  | rand d z hd =>
    refine ⟨fun r _ => State.getX_completeV s.takeDraw d _ r, fun r hr => State.getV_completeV_ne s.takeDraw _ ?_,
      fun _ a => State.readByte_completeV s.takeDraw d _ a⟩
    rintro rfl
    exact hr hd
  | fault code _ _ =>
    exact ⟨fun r _ => State.getX_raise s code _ r, fun r _ => State.getV_raise s code _ r, fun _ a => State.readByte_raise s code _ a⟩

/-- A command completes or takes a fault. -/
theorem Ending.succeeds_or_raised {i : Instr} {s t : State} (h : Ending i s t) :
    Succeeds s t ∨ ∃ code, t = s.raise code (encode i) := by
  cases h with
  | x d p _ => exact .inl (succeeds_complete (s.setX d p))
  | v d p _ _ => exact .inl (succeeds_complete (s.setV d p))
  | store idx off w data _ _ => exact .inl (succeeds_complete (s.setMem _))
  | rand d z _ => exact .inl (succeeds_complete (s.takeDraw.setV d _))
  | fault code _ _ => exact .inr ⟨code, rfl⟩

theorem exec_ends {i : Instr} {s t : State} (h : exec i s = .next t) : Ending i s t := by
  obtain ⟨u, hu, hend⟩ := exec_ending i s
  cases hu.symm.trans h
  exact hend

/-- Settles O25, from the frame of each of the five ways a command ends. -/
theorem commandsWriteOnlyTheirDestination : Obligations.CommandsWriteOnlyTheirDestination := by
  intro i s t h
  exact (exec_ends h).frame

/-- A word issued to a running unit completes, or faults and is the word in FAULTCMD. -/
theorem issue_running {cmd : Cmd} {s t : State} (hrun : statFaulted s.stat = false) (h : issue cmd s = .next t) :
    Succeeds s t ∨ ∃ code, t = s.raise code cmd := by
  obtain ⟨hf, -⟩ | ⟨-, -, hu⟩ | ⟨-, i, hi, hu⟩ := issue_cases cmd s
  · nomatch hrun.symm.trans hf
  · cases hu.symm.trans h
    exact .inr ⟨.illegalCommand, rfl⟩
  · rw [← encode_of_decode hi]
    exact (exec_ends (hu.symm.trans h)).succeeds_or_raised

end Sys2Proof.Machine
end

section
/-! The invariant (10_state.md R24, R29, R32): each operation on the state keeps it legal, and so does each way a command ends. -/

namespace Sys2Proof.Machine

section
variable {s : State} (h : LegalState s)
include h

theorem LegalState.take (rest : List HostAction) : LegalState (s.take rest) := h

theorem LegalState.respond (a : Response) : LegalState (s.respond a) := h

theorem LegalState.setX (r : XReg) (p : Word) : LegalState (s.setX r p) := h

theorem LegalState.takeDraw : LegalState s.takeDraw := h

theorem LegalState.setV (d : VReg) {p : Word} (hp : p.toNat < 2 ^ s.cfg.n) : LegalState (s.setV d p) := by
  obtain ⟨hcfg, hv, hrest⟩ := h
  refine ⟨hcfg, (canonicalV_iff _).2 fun r => ?_, hrest⟩
  by_cases hr : r = d
  · rw [hr, State.getV_setV_self]
    exact hp
  · rw [State.getV_setV_ne s p hr]
    exact (canonicalV_iff s).1 hv r

theorem LegalState.setMem {m : List Host.Cell} (hm : Memory.wf m = true) (hin : Memory.below m (8 * s.cfg.nwords) = true) :
    LegalState (s.setMem m) := by
  obtain ⟨hcfg, hv, -, -, hstat⟩ := h
  exact ⟨hcfg, hv, hm, hin, hstat⟩

/-- The parts of the invariant that a change of STAT and FAULTCMD leaves to show. -/
theorem LegalState.setStatus {t : State} (hcfg : t.cfg = s.cfg) (hv : t.v = s.v) (hmem : t.mem = s.mem)
    (hstat : statLegal t.stat = true) (hcmd : statErrSeen t.stat = false → t.faultCmd = 0) : LegalState t := by
  obtain ⟨hwf, hcan, hm, hin, -, -⟩ := h
  refine ⟨hcfg ▸ hwf, ?_, hmem ▸ hm, ?_, hstat, hcmd⟩
  · rw [canonicalV, hv, hcfg]
    exact hcan
  · rw [hmem, hcfg]
    exact hin

theorem LegalState.complete (hrun : statFaulted s.stat = false) : LegalState s.complete := by
  have ⟨_, _, _, _, hstat, hcmd⟩ := h
  exact LegalState.setStatus h rfl rfl rfl (statLegal_complete s.stat hstat hrun) (by simpa using hcmd)

theorem LegalState.raise {code : Code} (hc : code ≠ .ok) (cmd : Cmd) : LegalState (s.raise code cmd) := by
  have ⟨_, _, _, _, hstat, _⟩ := h
  exact LegalState.setStatus h rfl rfl rfl (statLegal_raise s.stat hstat code hc) (by simp)

theorem LegalState.ack : LegalState s.ack := by
  have ⟨_, _, _, _, hstat, hcmd⟩ := h
  refine LegalState.setStatus h (by simp) (by simp) (by simp) ?_ ?_ <;> rw [State.stat_ack] <;> split
  · exact statLegal_ack s.stat hstat
  · exact hstat
  · simpa using hcmd
  · simpa using hcmd

end

theorem statLegal_zero : statLegal 0 = true := by decide

theorem statFaulted_zero : statFaulted 0 = false := by decide

theorem statErrSeen_zero : statErrSeen 0 = false := by decide

theorem statReserved_zero : statReserved 0 = 0 := by decide

/-- Zero registers are canonical at every width. -/
theorem canonicalV_of_zero {s : State} (h : ∀ r, s.getV r = 0) : canonicalV s = true :=
  (canonicalV_iff s).2 fun r => by simp [h r]

theorem LegalState.hostReset {s : State} (h : LegalState s) : LegalState s.hostReset := by
  obtain ⟨hcfg, -, hm, hin, -, -⟩ := h
  exact ⟨hcfg, canonicalV_of_zero (State.getV_hostReset s), hm, hin, statLegal_zero, fun _ => rfl⟩

/-- Every end of a command keeps the state of a running unit legal. -/
theorem Ending.legal {i : Instr} {s t : State} (hs : LegalState s) (hrun : statFaulted s.stat = false) (h : Ending i s t) :
    LegalState t := by
  have ⟨hcfg, hv, hm, hin, _, _⟩ := hs
  cases h with
  | x d p _ => exact (hs.setX d p).complete hrun
  | v d p _ hp => exact (hs.setV d (hp hcfg hv)).complete hrun
  | store idx off w data _ hg =>
    obtain ⟨-, -, -, hidx, hnext⟩ := hg
    exact (hs.setMem (Memory.wf_writeField s.mem hm idx off w data)
      (Memory.below_writeField s.mem _ idx off w data hin hidx hnext)).complete hrun
  | rand d z _ => exact (hs.takeDraw.setV d (norm_lt s.cfg (wf_width hcfg).2 z)).complete hrun
  | fault code hc _ => exact hs.raise hc _

theorem issue_keeps_legal {cmd : Cmd} {s t : State} (hs : LegalState s) (h : issue cmd s = .next t) : LegalState t := by
  obtain ⟨-, hu⟩ | ⟨-, -, hu⟩ | ⟨hrun, i, -, hu⟩ := issue_cases cmd s
  · cases hu.symm.trans h
    exact hs.respond .refused
  · cases hu.symm.trans h
    exact hs.raise (by decide) cmd
  · exact (exec_ends (hu.symm.trans h)).legal hs hrun

end Sys2Proof.Machine
end

section
/-! What a step does to the unit's status and to the invariant, once: an issued word on a running unit, ACK (60_exceptions.md R235) and reset
(70_reset_and_hazards.md R260) are the only transactions that write STAT, CSI or FAULTCMD. -/

namespace Sys2Proof.Machine

/-- `STAT`, `CSI` and `FAULTCMD` as before. -/
def SameStatus (s t : State) : Prop := t.stat = s.stat ∧ t.csi = s.csi ∧ t.faultCmd = s.faultCmd

theorem sameStatus_refl (s : State) : SameStatus s s := ⟨rfl, rfl, rfl⟩

/-- What a step can do, by the host's oldest transaction. -/
inductive StepEffect (s : State) : State → Prop where
  /-- It is idle, a read, a write, or a word at a halted unit: the status keeps its values. -/
  | access {t : State} (hword : ∀ cmd rest, s.inbox = .issue cmd :: rest → statFaulted s.stat = true)
      (hreset : ∀ rest, s.inbox ≠ .reset :: rest) (hstatus : SameStatus s t) (hlegal : LegalState s → LegalState t) : StepEffect s t
  /-- A running unit is issued a word. -/
  | word {t : State} (cmd : Cmd) (rest : List HostAction) (hq : s.inbox = .issue cmd :: rest) (hrun : statFaulted s.stat = false)
      (h : issue cmd (s.take rest) = .next t) : StepEffect s t
  /-- The host acknowledges. -/
  | ack (rest : List HostAction) (hq : s.inbox = .ack :: rest) : StepEffect s (s.take rest).ack
  /-- The host resets. -/
  | reset (rest : List HostAction) (hq : s.inbox = .reset :: rest) : StepEffect s (s.take rest).hostReset

/-- A transaction that is no word and no reset, and that keeps the status. -/
theorem StepEffect.of_access {s t : State} {act : HostAction} {rest : List HostAction} (hq : s.inbox = act :: rest)
    (hword : ∀ cmd, act ≠ .issue cmd) (hreset : act ≠ .reset) (hstatus : SameStatus s t)
    (hlegal : LegalState s → LegalState t) : StepEffect s t := by
  refine .access (fun cmd _ hi => ?_) (fun _ hr => ?_) hstatus hlegal
  · exact absurd (List.cons.inj (hq.symm.trans hi)).1 (hword cmd)
  · exact hreset (List.cons.inj (hq.symm.trans hr)).1

/-- The port answers and does nothing else. -/
theorem StepEffect.of_respond {s : State} {act : HostAction} {rest : List HostAction} (hq : s.inbox = act :: rest)
    (hword : ∀ cmd, act ≠ .issue cmd) (hreset : act ≠ .reset) (a : Response) : StepEffect s ((s.take rest).respond a) :=
  .of_access hq hword hreset (sameStatus_refl s) id

theorem StepEffect.of_issue {s t : State} {cmd : Cmd} {rest : List HostAction} (hq : s.inbox = .issue cmd :: rest)
    (h : issue cmd (s.take rest) = .next t) : StepEffect s t := by
  obtain ⟨hf, hu⟩ | ⟨hrun, -⟩ | ⟨hrun, -⟩ := issue_cases cmd (s.take rest)
  · cases hu.symm.trans h
    exact .access (fun _ _ _ => hf) (by simp [hq]) (sameStatus_refl s) id
  · exact .word cmd rest hq hrun h
  · exact .word cmd rest hq hrun h

theorem StepEffect.of_readStore {s : State} {w : Nat} {rest : List HostAction} (hq : s.inbox = .readStore w :: rest) :
    StepEffect s (hostReadStore w (s.take rest)) := by
  unfold hostReadStore
  split <;> exact .of_respond hq nofun nofun _

theorem StepEffect.of_writeStore {s : State} {w : Nat} {p : Word} {rest : List HostAction} (hq : s.inbox = .writeStore w p :: rest) :
    StepEffect s (hostWriteStore w p (s.take rest)) := by
  unfold hostWriteStore
  split
  · next hw =>
    refine .of_access hq nofun nofun (sameStatus_refl s) fun hs => ?_
    have ⟨_, _, hm, hin, _, _⟩ := hs
    exact (hs.take rest).setMem (Memory.wf_writeWord s.mem hm w p) (Memory.below_writeWord s.mem _ w p hin hw)
  · exact .of_respond hq nofun nofun _

theorem step_effect {s t : State} (h : step s = .next t) : StepEffect s t := by
  cases hq : s.inbox with
  | nil =>
    cases (step_idle s hq).symm.trans h
    exact .access (by simp [hq]) (by simp [hq]) (sameStatus_refl s) id
  | cons act rest =>
    have hp : perform act (s.take rest) = .next t := (step_perform s act rest hq).symm.trans h
    cases act with
    | issue cmd => exact .of_issue hq hp
    | writeX r p => cases hp; exact .of_access hq nofun nofun (sameStatus_refl s) fun hs => (hs.take rest).setX r p
    | readX r => cases hp; exact .of_respond hq nofun nofun _
    | readStat => cases hp; exact .of_respond hq nofun nofun _
    | readConfig => cases hp; exact .of_respond hq nofun nofun _
    | readFaultCmd => cases hp; exact .of_respond hq nofun nofun _
    | readCSI => cases hp; exact .of_respond hq nofun nofun _
    | ack => cases hp; exact .ack rest hq
    | readStore w => cases hp; exact .of_readStore hq
    | writeStore w p => cases hp; exact .of_writeStore hq
    | reset => cases hp; exact .reset rest hq

theorem step_keeps_legal {s t : State} (hs : LegalState s) (h : step s = .next t) : LegalState t := by
  cases step_effect h with
  | access _ _ _ hlegal => exact hlegal hs
  | word cmd rest _ _ hi => exact issue_keeps_legal (hs.take rest) hi
  | ack rest _ => exact (hs.take rest).ack
  | reset rest _ => exact (hs.take rest).hostReset

/-- Settles O12, by what each kind of step does to the invariant. -/
theorem everyStepKeepsTheStateLegal : Obligations.EveryStepKeepsTheStateLegal := by
  intro s t
  exact step_keeps_legal

/-- Settles O15: a command that completes keeps ERRSEEN, a fault sets it, and ACK keeps it. -/
theorem errSeenIsClearedOnlyByReset : Obligations.ErrSeenIsClearedOnlyByReset := by
  intro s t h hseen hnoReset
  cases step_effect h with
  | access _ _ hstatus _ => rwa [hstatus.1]
  | word cmd rest _ hrun hi =>
    obtain ⟨-, -, herr, -⟩ | ⟨code, rfl⟩ := issue_running (s := s.take rest) hrun hi
    · exact herr.trans hseen
    · exact statErrSeen_raise code s.stat
  | ack rest _ =>
    rw [State.stat_ack, State.stat_take]
    split
    · rwa [statErrSeen_ack]
    · exact hseen
  | reset rest hq => exact absurd hq (hnoReset rest)

/-- Settles O17: FAULTED rises with the fault entry alone, which records the word, and falls with ACK and reset alone. -/
theorem haltIsEnteredByAWordAndLeftByAckOrReset : Obligations.HaltIsEnteredByAWordAndLeftByAckOrReset := by
  intro s t h
  cases step_effect h with
  | access _ _ hstatus _ =>
    rw [hstatus.1]
    exact ⟨fun hrun hf => (nomatch hrun.symm.trans hf), fun hf hrun => nomatch hrun.symm.trans hf⟩
  | word cmd rest hq hrun hi =>
    refine ⟨fun _ hf => ⟨cmd, rest, hq, ?_⟩, fun hf _ => nomatch hrun.symm.trans hf⟩
    obtain ⟨-, hkeep, -⟩ | ⟨code, rfl⟩ := issue_running (s := s.take rest) hrun hi
    · nomatch hrun.symm.trans (hkeep.symm.trans hf)
    · exact State.faultCmd_raise _ code cmd
  | ack rest hq =>
    refine ⟨fun hrun hf => ?_, fun _ _ => ⟨rest, .inl hq⟩⟩
    simp [hrun] at hf
  | reset rest hq => exact ⟨fun _ hf => (nomatch statFaulted_zero.symm.trans hf), fun _ _ => ⟨rest, .inr hq⟩⟩

/-- Settles O18: CSI and FAULTCMD move with the end of a command and with reset alone; a word that completes moves the first, one that
faults the second. -/
theorem csiCountsCompletedCommands : Obligations.CsiCountsCompletedCommands := by
  intro s t h
  cases step_effect h with
  | access hword hreset hstatus _ =>
    refine ⟨fun cmd rest hq hrun => (nomatch hrun.symm.trans (hword cmd rest hq)), fun rest hq => absurd hq (hreset rest),
      fun _ _ => hstatus.2⟩
  | word cmd rest hq hrun hi =>
    refine ⟨fun cmd' rest' hq' _ => ?_, by simp [hq], fun hhalted _ => nomatch hrun.symm.trans (hhalted cmd rest hq)⟩
    obtain ⟨rfl, -⟩ : cmd = cmd' ∧ rest = rest' := by simpa [hq] using hq'
    obtain ⟨-, hkeep, -, -, hcsi, hcmd⟩ | ⟨code, rfl⟩ := issue_running (s := s.take rest) hrun hi
    · exact .inl ⟨hkeep.trans hrun, hcsi, hcmd⟩
    · exact .inr ⟨statFaulted_raise code _, rfl, rfl⟩
  | ack rest hq => exact ⟨by simp [hq], by simp [hq], fun _ _ => by simp⟩
  | reset rest hq => exact ⟨by simp [hq], fun _ _ => ⟨rfl, rfl⟩, fun _ hno => absurd hq (hno rest)⟩

end Sys2Proof.Machine
end

section
/-! Power-on (10_state.md R35), the range of the value registers (R24) and the register CONFIG (R30). -/

namespace Sys2Proof.Machine

@[simp] theorem State.getX_powerOn (cfg : Config) (init : List Host.Cell) (r : XReg) : (State.powerOn cfg init).getX r = 0 := by
  simp [State.getX, State.powerOn]

@[simp] theorem State.getV_powerOn (cfg : Config) (init : List Host.Cell) (r : VReg) : (State.powerOn cfg init).getV r = 0 := by
  simp [State.getV, State.powerOn]

theorem step_reset {s : State} {rest : List HostAction} (hq : s.inbox = .reset :: rest) :
    step s = .next (s.take rest).hostReset :=
  step_perform s .reset rest hq

/-- Settles O10: `State.powerOn` writes the values out, and the reset step is `State.hostReset`. -/
theorem powerOnAndResetValues : Obligations.PowerOnAndResetValues := by
  refine ⟨fun cfg init => ?_, fun s rest hq => ⟨_, step_reset hq, ?_⟩⟩
  · exact ⟨State.getX_powerOn cfg init, State.getV_powerOn cfg init, rfl, rfl, statFaulted_zero, statErrSeen_zero,
      statReserved_zero, rfl, fun _ => rfl, rfl⟩
  · exact ⟨State.getX_hostReset _, State.getV_hostReset _, rfl, rfl, rfl, State.readByte_hostReset _, rfl, rfl⟩

theorem legalState_powerOn {cfg : Config} {init : List Host.Cell} (hcfg : cfg.wf = true) (hm : Memory.wf init = true)
    (hin : Memory.below init (8 * cfg.nwords) = true) : LegalState (State.powerOn cfg init) :=
  ⟨hcfg, canonicalV_of_zero (State.getV_powerOn cfg init), hm, hin, statLegal_zero, fun _ => rfl⟩

/-- Settles O11: `State.reset` is the power-on of `Config.reference` with an empty store. -/
theorem powerOnStateIsLegal : Obligations.PowerOnStateIsLegal :=
  ⟨fun _ _ hcfg hm hin => legalState_powerOn hcfg hm hin, legalState_powerOn (by decide) rfl rfl⟩

theorem vval_range {s : State} (hcfg : s.cfg.wf = true) (hv : canonicalV s = true) (r : VReg) :
    minv s.cfg ≤ s.vval r ∧ s.vval r ≤ maxv s.cfg :=
  val_range s.cfg (wf_width hcfg).1 _ ((canonicalV_iff s).1 hv r)

/-- Settles O13: canonical value registers read in `[MINV, MAXV]`, and every step keeps them canonical. -/
theorem valueRegistersAreCanonical : Obligations.ValueRegistersAreCanonical := by
  refine ⟨fun cfg init r hcfg => ?_, fun s t hs h r => ?_⟩
  · exact vval_range (s := State.powerOn cfg init) hcfg (canonicalV_of_zero (State.getV_powerOn cfg init)) r
  · obtain ⟨hcfg, hv, -⟩ := step_keeps_legal hs h
    exact vval_range hcfg hv r

theorem configWord_width (c : Config) : (configWord c).extractLsb' 0 7 = BitVec.ofNat 7 c.n :=
  BitVec.extractLsb'_append_eq_right

theorem configWord_signed (c : Config) : (configWord c).extractLsb' 7 1 = BitVec.ofBool c.signed := by
  rw [configWord, BitVec.extractLsb'_append_eq_of_le (by omega)]
  exact BitVec.extractLsb'_append_eq_right

theorem configWord_reserved (c : Config) : (configWord c).extractLsb' 8 24 = 0#24 := by
  rw [configWord, BitVec.extractLsb'_append_eq_of_le (by omega), BitVec.extractLsb'_append_eq_of_le (by omega)]
  exact BitVec.extractLsb'_append_eq_right

theorem configWord_nwords (c : Config) : (configWord c).extractLsb' 32 32 = BitVec.ofNat 32 c.nwords := by
  rw [configWord, BitVec.extractLsb'_append_eq_of_le (by omega), BitVec.extractLsb'_append_eq_of_le (by omega)]
  exact BitVec.extractLsb'_append_eq_left

/-- Settles O21: WIDTH and NWORDS fit their fields when the parameters are legal. -/
theorem configRegisterFields : Obligations.ConfigRegisterFields := by
  intro c hc
  obtain ⟨⟨⟨-, hn⟩, -⟩, hw⟩ : ((1 ≤ c.n ∧ c.n ≤ 64) ∧ 1 ≤ c.nwords) ∧ c.nwords ≤ 2 ^ 32 - 1 := by
    simpa [Config.wf] using hc
  refine ⟨?_, ?_, configWord_reserved c, ?_, ?_⟩
  · rw [configWord_width, BitVec.toNat_ofNat, Nat.mod_eq_of_lt (by omega)]
  · simpa using congrArg (fun b => b.getLsbD 0) (configWord_signed c)
  · rw [configWord_nwords, BitVec.toNat_ofNat, Nat.mod_eq_of_lt (by omega)]
  · intro s t hs h
    rw [step_keeps_cfg h, hs]

end Sys2Proof.Machine
end

section
/-! The codec commands at a legal geometry (40_codec.md R101 to R104): each does its work and completes, and its bits are those of the stream
of 20_memory.md R50. -/

namespace Sys2Proof.Machine

/-- `norm` of a 64-bit pattern keeps its N low bits (00_scope.md R12). -/
theorem normOf_toNat_bit (c : Config) (p : Word) {j : Nat} (hj : j < 64) :
    (normOf c p.toNat).getLsbD j = (decide (j < c.n) && p.getLsbD j) := by
  have hnat : normOf c p.toNat = BitVec.ofNat 64 (p.toNat % 2 ^ c.n) := by
    rw [normOf, ← BitVec.ofInt_natCast]
    norm_cast
  rw [hnat, BitVec.getLsbD_ofNat, Nat.testBit_mod_two_pow, BitVec.testBit_toNat]
  simp [hj]

/-- The field that LDV folds has N bits already, so folding keeps every bit of it (40_codec.md R103). -/
theorem normOf_readField_bit (c : Config) (m : List Host.Cell) (idx off : Nat) {j : Nat} (ho : off ≤ 63) (hj : j < 64) :
    (normOf c (Memory.readField m idx off c.n).toNat).getLsbD j
      = (decide (j < c.n) && Memory.streamBit m (64 * idx + off + j)) := by
  rw [normOf_toNat_bit c _ hj, Memory.readField_bit m idx off c.n j ho hj, ← Bool.and_assoc, Bool.and_self]

section
variable {s : State} {xi xo : XReg}

theorem exec_decode_of_geometryOk {w : Nat} (d : XReg) (hg : GeometryOk s.cfg w (s.getX xo).toNat (s.getX xi).toNat) :
    exec (.decode d xi xo w) s
      = .next (s.completeX d (Memory.readField s.mem (s.getX xi).toNat (s.getX xo).toNat w)) :=
  congrArg Host.Outcome.next (withGeometry_ok s _ w xi xo _ hg)

theorem exec_encode_of_geometryOk {w : Nat} (src : XReg) (hg : GeometryOk s.cfg w (s.getX xo).toNat (s.getX xi).toNat) :
    exec (.encode src xi xo w) s
      = .next (s.setMem (Memory.writeField s.mem (s.getX xi).toNat (s.getX xo).toNat w (s.getX src))).complete :=
  congrArg Host.Outcome.next (withGeometry_ok s _ w xi xo _ hg)

theorem exec_ldv_of_geometryOk (d : VReg) (hg : GeometryOk s.cfg s.cfg.n (s.getX xo).toNat (s.getX xi).toNat) :
    exec (.ldv d xi xo) s
      = .next (s.completeV d
          (normOf s.cfg (Memory.readField s.mem (s.getX xi).toNat (s.getX xo).toNat s.cfg.n).toNat)) :=
  congrArg Host.Outcome.next (withGeometry_ok s _ s.cfg.n xi xo _ hg)

theorem exec_stv_of_geometryOk (src : VReg) (hg : GeometryOk s.cfg s.cfg.n (s.getX xo).toNat (s.getX xi).toNat) :
    exec (.stv src xi xo) s
      = .next (s.setMem (Memory.writeField s.mem (s.getX xi).toNat (s.getX xo).toNat s.cfg.n (s.getV src))).complete :=
  congrArg Host.Outcome.next (withGeometry_ok s _ s.cfg.n xi xo _ hg)

end

/-- Settles O33: DECODE writes the field it reads, and bit `j` of a field is its stream bit. -/
theorem decodeReadsTheField : Obligations.DecodeReadsTheField := by
  intro s d xi xo w hg
  refine ⟨rfl, _, exec_decode_of_geometryOk d hg, completesX s d _, fun j hj => ?_⟩
  obtain ⟨-, -, hoff, -, -⟩ := hg
  rw [State.getX_completeX_self]
  exact Memory.readField_bit s.mem _ _ w j hoff hj

/-- Settles O34: the store of a legal state is canonical, so the field write changes the field's bits alone. -/
theorem encodeStoresTheField : Obligations.EncodeStoresTheField := by
  intro s src xi xo w ⟨_, _, hmem, _⟩ hg
  refine ⟨rfl, _, exec_encode_of_geometryOk src hg, ?_⟩
  obtain ⟨-, hw, hoff, -, -⟩ := hg
  exact completesStore s hmem _ _ w (s.getX src) hw hoff

/-- Settles O35: LDV writes the field it reads, which folding to N bits leaves as it is. -/
theorem ldvLoadsTheField : Obligations.LdvLoadsTheField := by
  intro s d xi xo _ hg
  refine ⟨rfl, _, exec_ldv_of_geometryOk d hg, completesV s d _, fun j hj => ?_⟩
  obtain ⟨-, -, hoff, -, -⟩ := hg
  rw [State.getV_completeV_self]
  exact normOf_readField_bit s.cfg s.mem _ _ hoff hj

/-- Settles O36: as for ENCODE, with the pattern of a value register at the width N. -/
theorem stvStoresTheField : Obligations.StvStoresTheField := by
  intro s src xi xo ⟨_, _, hmem, _⟩ hg
  refine ⟨rfl, _, exec_stv_of_geometryOk src hg, ?_⟩
  obtain ⟨-, hw, hoff, -, -⟩ := hg
  exact completesStore s hmem _ _ s.cfg.n (s.getV src) hw hoff

end Sys2Proof.Machine
end

section
/-! The decoder reads back what the encoder writes (30_encoding.md R72 to R78, R82): a command's row selects its word, and the fields the
decoder takes from the word are the ones the encoder put there. -/

namespace Sys2Proof

open Laws

/-! The fields of each format, one by one. -/

@[simp] theorem fieldsOf_formatR_d (opc : BitVec 8) (d a b : BitVec 4) : (fieldsOf (formatR opc d a b)).d = d :=
  (fieldsOf_formatR opc d a b).1

@[simp] theorem fieldsOf_formatR_a (opc : BitVec 8) (d a b : BitVec 4) : (fieldsOf (formatR opc d a b)).a = a :=
  (fieldsOf_formatR opc d a b).2.1

@[simp] theorem fieldsOf_formatR_b (opc : BitVec 8) (d a b : BitVec 4) : (fieldsOf (formatR opc d a b)).b = b :=
  (fieldsOf_formatR opc d a b).2.2

section
variable (opc : BitVec 8) (d a b : BitVec 4) {w : Nat} (hw : w ≤ 127)
include hw

@[simp] theorem fieldsOf_formatC_d : (fieldsOf (formatC opc d a b w)).d = d :=
  (fieldsOf_formatC opc d a b w hw).1

@[simp] theorem fieldsOf_formatC_a : (fieldsOf (formatC opc d a b w)).a = a :=
  (fieldsOf_formatC opc d a b w hw).2.1

@[simp] theorem fieldsOf_formatC_b : (fieldsOf (formatC opc d a b w)).b = b :=
  (fieldsOf_formatC opc d a b w hw).2.2.1

@[simp] theorem fieldsOf_formatC_w : (fieldsOf (formatC opc d a b w)).w = w :=
  (fieldsOf_formatC opc d a b w hw).2.2.2

end

section
variable (opc : BitVec 8) (d : BitVec 4) {imm : Int} (hlo : -524288 ≤ imm) (hhi : imm ≤ 524287)
include hlo hhi

@[simp] theorem fieldsOf_formatXI_d : (fieldsOf (formatXI opc d imm)).d = d :=
  (fieldsOf_formatXI opc d imm hlo hhi).1

@[simp] theorem fieldsOf_formatXI_imm : (fieldsOf (formatXI opc d imm)).imm = imm :=
  (fieldsOf_formatXI opc d imm hlo hhi).2

end

/-- Every command's word selects the row of its mnemonic. -/
theorem encode_selects_row : ∀ i : Instr, EncodedWordSelectsItsRow.Statement i
  | .xli d imm => EncodedWordSelectsItsRow.xli d imm
  | .setraw d a => EncodedWordSelectsItsRow.setraw d a
  | .get d a => EncodedWordSelectsItsRow.get d a
  | .tobf d a => EncodedWordSelectsItsRow.tobf d a
  | .setchk d a => EncodedWordSelectsItsRow.setchk d a
  | .zero d => EncodedWordSelectsItsRow.zero d
  | .copy d a => EncodedWordSelectsItsRow.copy d a
  | .maxb d => EncodedWordSelectsItsRow.maxb d
  | .minb d => EncodedWordSelectsItsRow.minb d
  | .decode d xi xo w => EncodedWordSelectsItsRow.decode d xi xo w
  | .encode src xi xo w => EncodedWordSelectsItsRow.encode src xi xo w
  | .ldv d xi xo => EncodedWordSelectsItsRow.ldv d xi xo
  | .stv src xi xo => EncodedWordSelectsItsRow.stv src xi xo
  | .add d a b => EncodedWordSelectsItsRow.add d a b
  | .sub d a b => EncodedWordSelectsItsRow.sub d a b
  | .mul d a b => EncodedWordSelectsItsRow.mul d a b
  | .div d a b => EncodedWordSelectsItsRow.div d a b
  | .mod d a b => EncodedWordSelectsItsRow.mod d a b
  | .neg d a => EncodedWordSelectsItsRow.neg d a
  | .abs d a => EncodedWordSelectsItsRow.abs d a
  | .succ d a => EncodedWordSelectsItsRow.succ d a
  | .pred d a => EncodedWordSelectsItsRow.pred d a
  | .gcd d a b => EncodedWordSelectsItsRow.gcd d a b
  | .lcm d a b => EncodedWordSelectsItsRow.lcm d a b
  | .pow d a b => EncodedWordSelectsItsRow.pow d a b
  | .shl d a b => EncodedWordSelectsItsRow.shl d a b
  | .shr d a b => EncodedWordSelectsItsRow.shr d a b
  | .shrz d a b => EncodedWordSelectsItsRow.shrz d a b
  | .rotl d a b => EncodedWordSelectsItsRow.rotl d a b
  | .rotr d a b => EncodedWordSelectsItsRow.rotr d a b
  | .and d a b => EncodedWordSelectsItsRow.and d a b
  | .or d a b => EncodedWordSelectsItsRow.or d a b
  | .xor d a b => EncodedWordSelectsItsRow.xor d a b
  | .not d a => EncodedWordSelectsItsRow.not d a
  | .cmp d a b => EncodedWordSelectsItsRow.cmp d a b
  | .eq d a b => EncodedWordSelectsItsRow.eq d a b
  | .ne d a b => EncodedWordSelectsItsRow.ne d a b
  | .lt d a b => EncodedWordSelectsItsRow.lt d a b
  | .le d a b => EncodedWordSelectsItsRow.le d a b
  | .gt d a b => EncodedWordSelectsItsRow.gt d a b
  | .ge d a b => EncodedWordSelectsItsRow.ge d a b
  | .rand d => EncodedWordSelectsItsRow.rand d

/-- The row of a command's mnemonic builds the command again from the fields of its word (30_encoding.md R75, R76). -/
theorem build_fieldsOf_encode {i : Instr} (hi : i.wellFormed = true) {r : Row}
    (hr : EncodedWordSelectsItsRow.rowNamed (EncodedWordSelectsItsRow.mnemonicOf i) = some r) :
    r.build (fieldsOf (encode i)) = i := by
  cases i with
  | xli d imm =>
    obtain rfl := Option.some.inj hr
    have himm : -524288 ≤ imm ∧ imm ≤ 524287 := by simpa [Instr.wellFormed] using hi
    simp [encode, Fields.xd, himm]
  | decode d xi xo w | encode d xi xo w =>
    obtain rfl := Option.some.inj hr
    have hw : w ≤ 127 := of_decide_eq_true hi
    simp [encode, Fields.xd, Fields.xa, Fields.xb, hw]
  | ldv d xi xo | stv d xi xo =>
    obtain rfl := Option.some.inj hr
    simp [encode, Fields.vd, Fields.xa, Fields.xb]
  | zero d | maxb d | minb d | rand d =>
    obtain rfl := Option.some.inj hr
    simp [encode, Fields.vd]
  | setraw d a | get d a | tobf d a | setchk d a | copy d a | neg d a | abs d a | succ d a | pred d a | not d a =>
    obtain rfl := Option.some.inj hr
    simp [encode, Fields.xd, Fields.vd, Fields.xa, Fields.va]
  | add d a b | sub d a b | mul d a b | div d a b | mod d a b | gcd d a b | lcm d a b | pow d a b
  | shl d a b | shr d a b | shrz d a b | rotl d a b | rotr d a b | and d a b | or d a b | xor d a b
  | cmp d a b | eq d a b | ne d a b | lt d a b | le d a b | gt d a b | ge d a b =>
    obtain rfl := Option.some.inj hr
    simp [encode, Fields.xd, Fields.vd, Fields.va, Fields.xb, Fields.vb]

/-- Settles O1: the command's own row selects its word, and builds it again from the word's fields. -/
theorem wellFormedCommandDecodesFromItsWord : Obligations.WellFormedCommandDecodesFromItsWord := by
  intro i hi
  obtain ⟨r, hname, hr, hsel⟩ := encode_selects_row i
  rw [decode_of_selects hr hsel, build_fieldsOf_encode hi hname]

/-! The immediates that the decoder reads are in range (30_encoding.md R76). -/

theorem fieldsOf_w_le (cmd : Cmd) : (fieldsOf cmd).w ≤ 127 :=
  Nat.le_of_lt_succ (cmd.extractLsb' 0 7).isLt

theorem fieldsOf_imm_ge (cmd : Cmd) : -524288 ≤ (fieldsOf cmd).imm :=
  BitVec.le_toInt (cmd.extractLsb' 0 20)

theorem fieldsOf_imm_le (cmd : Cmd) : (fieldsOf cmd).imm ≤ 524287 :=
  Int.le_of_lt_add_one (BitVec.toInt_lt (x := cmd.extractLsb' 0 20))

/-- Only XLI, DECODE and ENCODE take an immediate; the other rows build a well-formed command from any fields. -/
theorem opcodeRows_build_wellFormed (cmd : Cmd) : ∀ r ∈ opcodeRows, (r.build (fieldsOf cmd)).wellFormed = true := by
  simp only [opcodeRows, List.forall_mem_append]
  refine ⟨⟨⟨⟨?value, ?codec⟩, ?arith⟩, ?bit⟩, ?compare⟩
  case value => simp [valueRows, Instr.wellFormed, fieldsOf_imm_ge, fieldsOf_imm_le]
  case codec => simp [codecRows, Instr.wellFormed, fieldsOf_w_le]
  case arith => simp [arithRows, Instr.wellFormed]
  case bit => simp [bitRows, Instr.wellFormed]
  case compare => simp [compareRows, Instr.wellFormed]

/-- Settles O2: the row that selects the word encodes back to it, and the immediates it reads are in range. -/
theorem legalWordIsTheWordOfItsCommand : Obligations.LegalWordIsTheWordOfItsCommand := by
  intro cmd i h
  refine ⟨encode_of_decode h, ?_⟩
  obtain ⟨r, hr, -, rfl⟩ := selects_of_decode h
  exact opcodeRows_build_wellFormed cmd r hr

end Sys2Proof
end

section
/-! The legal words (30_encoding.md R79 to R82): a word is legal exactly when a row selects it, a row is known by its opcode, and every other
word takes the IllegalCommand fault. -/

namespace Sys2Proof

theorem Row.selects_iff (r : Row) (cmd : Cmd) : r.selects cmd = true ↔ cmd &&& r.mask = r.bits := by
  simp [Row.selects]

theorem decode_ok_iff (cmd : Cmd) : (∃ i, decode cmd = .ok i) ↔ ∃ r ∈ opcodeRows, r.selects cmd = true := by
  constructor
  · rintro ⟨i, h⟩
    obtain ⟨r, hr, hsel, -⟩ := selects_of_decode h
    exact ⟨r, hr, hsel⟩
  · rintro ⟨r, hr, hsel⟩
    exact ⟨_, decode_of_selects hr hsel⟩

theorem decode_error_iff (cmd : Cmd) : (∃ e, decode cmd = .error e) ↔ ¬ ∃ i, decode cmd = .ok i := by
  cases decode cmd <;> simp

/-- At most one row selects a word (30_encoding.md R81). -/
theorem Row.eq_of_selects {r q : Row} (hr : r ∈ opcodeRows) (hq : q ∈ opcodeRows) {cmd : Cmd} (hrs : r.selects cmd = true)
    (hqs : q.selects cmd = true) : r = q :=
  Option.some.inj ((find_of_selects opcodeRows_distinct (fun _ h => h) hr hrs).symm.trans
    (find_of_selects opcodeRows_distinct (fun _ h => h) hq hqs))

/-- Settles O3: a word decodes exactly when some row selects it, and no two rows select one word. -/
theorem legalWordsAreThoseOfExactlyOneRow : Obligations.LegalWordsAreThoseOfExactlyOneRow := by
  intro cmd
  constructor
  · rw [decode_ok_iff]
    constructor
    · rintro ⟨r, hr, hsel⟩
      refine ⟨(r.mnemonic, r.mask, r.bits), ⟨List.mem_map_of_mem hr, (r.selects_iff cmd).1 hsel⟩, ?_⟩
      rintro _ ⟨hmem, hbits⟩
      obtain ⟨q, hq, rfl⟩ := List.mem_map.1 hmem
      rw [Row.eq_of_selects hr hq hsel ((q.selects_iff cmd).2 hbits)]
    · rintro ⟨_, ⟨hmem, hbits⟩, -⟩
      obtain ⟨r, hr, rfl⟩ := List.mem_map.1 hmem
      exact ⟨r, hr, (r.selects_iff cmd).2 hbits⟩
  · rw [decode_error_iff, decode_ok_iff]
    simp only [Row.selects_iff, not_exists, not_and, ne_eq]

/-! The opcode of a row, and the bits below it. -/

theorem opcodeRows_mask_opcode_ones : ∀ r ∈ opcodeRows, r.mask.extractLsb' 24 8 = BitVec.allOnes 8 := by decide +kernel

theorem opcodeRows_bits_low_zero : ∀ r ∈ opcodeRows, r.bits.extractLsb' 0 24 = 0#24 := by decide +kernel

theorem opcodeRows_opcodes_nodup : (opcodeRows.map fun r => r.bits.extractLsb' 24 8).Nodup := by decide +kernel

/-- The opcodes that 30_encoding.md R80 lists as unassigned. -/
def UnassignedOpcode (o : Nat) : Prop :=
  o = 0x00 ∨ (0x02 ≤ o ∧ o ≤ 0x0F) ∨ (0x18 ≤ o ∧ o ≤ 0x1F) ∨ (0x24 ≤ o ∧ o ≤ 0x2F) ∨ (0x3C ≤ o ∧ o ≤ 0x3F)
    ∨ (0x49 ≤ o ∧ o ≤ 0x4F) ∨ (0x57 ≤ o ∧ o ≤ 0x5F) ∨ 0x61 ≤ o

/-- No row has an opcode that R80 lists. -/
theorem opcodeRows_assigned : ∀ r ∈ opcodeRows, ¬ UnassignedOpcode (r.bits.extractLsb' 24 8).toNat := by
  unfold UnassignedOpcode
  decide +kernel

/-- A word that a row selects has the row's opcode. -/
theorem Row.extract_opcode_of_selects {r : Row} (hr : r ∈ opcodeRows) {cmd : Cmd} (h : r.selects cmd = true) :
    cmd.extractLsb' 24 8 = r.bits.extractLsb' 24 8 :=
  Row.extract_of_selects h 24 8 (opcodeRows_mask_opcode_ones r hr)

/-- A row is known by its opcode: a row that selects a word is the one row with the word's opcode. -/
theorem Row.selects_of_opcode {row : Row} (hrow : row ∈ opcodeRows) {cmd : Cmd}
    (hopc : cmd.extractLsb' 24 8 = row.bits.extractLsb' 24 8) {i : Instr} (h : decode cmd = .ok i) : row.selects cmd = true := by
  obtain ⟨q, hq, hsel, -⟩ := selects_of_decode h
  have hqrow : q = row := List.inj_on_of_nodup_map opcodeRows_opcodes_nodup hq hrow
    ((Row.extract_opcode_of_selects hq hsel).symm.trans hopc)
  rwa [← hqrow]

/-- A word that a row selects is 0 in every bit below the opcode that the row's mask covers (30_encoding.md R79). -/
theorem Row.bit_eq_false_of_selects {r : Row} (hr : r ∈ opcodeRows) {cmd : Cmd} (h : r.selects cmd = true) {j : Nat} (hj : j < 24)
    (hm : r.mask.getLsbD j = true) : cmd.getLsbD j = false := by
  have hlow : (r.bits.extractLsb' 0 24).getLsbD j = false := by rw [opcodeRows_bits_low_zero r hr, BitVec.getLsbD_zero]
  rw [BitVec.getLsbD_extractLsb', Nat.zero_add, ← (r.selects_iff cmd).1 h, BitVec.getLsbD_and, hm] at hlow
  simpa [hj] using hlow

end Sys2Proof

namespace Sys2Proof.Machine

/-- A word that is no command, issued to a running unit, takes the IllegalCommand fault (60_exceptions.md R230, R232). -/
theorem step_illegal {s : State} {cmd : Cmd} {rest : List HostAction} (hq : s.inbox = .issue cmd :: rest)
    (hrun : statFaulted s.stat = false) (hbad : ∀ i, decode cmd ≠ .ok i) :
    ∃ t, step s = .next t ∧ Raises .illegalCommand cmd (s.take rest) t := by
  have hstep : step s = issue cmd (s.take rest) := step_perform s _ rest hq
  obtain ⟨hf, -⟩ | ⟨-, -, hissue⟩ | ⟨-, i, hi, -⟩ := issue_cases cmd (s.take rest)
  · exact nomatch hrun.symm.trans hf
  · exact ⟨_, hstep.trans hissue, raises _ _ _⟩
  · exact absurd hi (hbad i)

/-- Settles O5: only the row with the word's opcode could select the word, and it asks for a 0 in the bit that is 1. -/
theorem mustBeZeroBitRaisesIllegalCommand : Obligations.MustBeZeroBitRaisesIllegalCommand := by
  intro s cmd rest row hq hrun hrow hopc ⟨j, hj, hm, hbit⟩
  refine step_illegal hq hrun fun i hi => ?_
  have hsel : row.selects cmd = true := Row.selects_of_opcode hrow hopc hi
  exact nomatch hbit.symm.trans (Row.bit_eq_false_of_selects hrow hsel hj hm)

/-- Settles O6: a row that selected the word would have the word's opcode, and no row has an unassigned one. -/
theorem unassignedOpcodeRaisesIllegalCommand : Obligations.UnassignedOpcodeRaisesIllegalCommand := by
  intro s cmd rest hq hrun hopc
  refine step_illegal hq hrun fun i hi => ?_
  obtain ⟨r, hr, hsel, -⟩ := selects_of_decode hi
  refine opcodeRows_assigned r hr ?_
  rw [← Row.extract_opcode_of_selects hr hsel]
  exact hopc _ rfl

/-- Settles O4, by running the decoder on the words. -/
theorem writtenOutWordsOfEveryGroupDecode : Obligations.WrittenOutWordsOfEveryGroupDecode := by
  unfold Obligations.WrittenOutWordsOfEveryGroupDecode
  decide +kernel

end Sys2Proof.Machine
end

section
/-! The laws of the codec commands: which fault a failing geometry takes (40_codec.md R100, 60_exceptions.md R233), the round trip
(R105), and that SIGNED plays no part (R106). -/

namespace Sys2Proof.Machine

section
variable {c : Config} {w off idx : Nat}

theorem checkGeometry_eq_invalidWidth (hw : w < 1 ∨ 64 < w) : checkGeometry c w off idx = some .invalidWidth :=
  if_pos hw

theorem checkGeometry_eq_invalidOffset (h1 : 1 ≤ w) (h64 : w ≤ 64) (ho : 63 < off) :
    checkGeometry c w off idx = some .invalidOffset := by
  rw [checkGeometry, if_neg (by omega), if_pos ho]

theorem checkGeometry_eq_storeBounds (h1 : 1 ≤ w) (h64 : w ≤ 64) (ho : off ≤ 63)
    (hb : c.nwords ≤ idx ∨ (64 < off + w ∧ c.nwords ≤ idx + 1)) : checkGeometry c w off idx = some .storeBounds := by
  rw [checkGeometry, if_neg (by omega), if_neg (by omega)]
  by_cases hidx : c.nwords ≤ idx
  · rw [if_pos hidx]
  · rw [if_neg hidx, if_pos (hb.resolve_left hidx)]

end

/-- The command is a codec command: it checks the geometry of width `w` at the operands `xi` and `xo` before
anything else (40_codec.md R100). -/
def ChecksGeometry (i : Instr) (w : Nat) (xi xo : XReg) (s : State) : Prop :=
  ∃ go, exec i s = .next (s.withGeometry (encode i) w xi xo go)

section
variable (s : State) (xi xo : XReg)

theorem checksGeometry_decode (d : XReg) (w : Nat) : ChecksGeometry (.decode d xi xo w) w xi xo s := ⟨_, rfl⟩

theorem checksGeometry_encode (src : XReg) (w : Nat) : ChecksGeometry (.encode src xi xo w) w xi xo s := ⟨_, rfl⟩

theorem checksGeometry_ldv (d : VReg) : ChecksGeometry (.ldv d xi xo) s.cfg.n xi xo s := ⟨_, rfl⟩

theorem checksGeometry_stv (src : VReg) : ChecksGeometry (.stv src xi xo) s.cfg.n xi xo s := ⟨_, rfl⟩

end

/-- A failed check: the codec command takes the fault the check reports, and does none of its work. -/
theorem ChecksGeometry.raises {i : Instr} {w : Nat} {xi xo : XReg} {s : State} {code : Code} (h : ChecksGeometry i w xi xo s)
    (hc : checkGeometry s.cfg w (s.getX xo).toNat (s.getX xi).toNat = some code) :
    ∃ t, exec i s = .next t ∧ Raises code (encode i) s t := by
  obtain ⟨go, hexec⟩ := h
  have hraise : s.withGeometry (encode i) w xi xo go = s.raise code (encode i) := by
    simp only [State.withGeometry, uint64, hc]
  exact ⟨_, hexec.trans (congrArg Host.Outcome.next hraise), Machine.raises s code (encode i)⟩

/-- Settles O37: both commands check the geometry at the immediate's width, and the check reports its first failure. -/
theorem rawCodecReportsTheFirstFailingCheck : Obligations.RawCodecReportsTheFirstFailingCheck := by
  rintro s r xi xo w off idx i rfl rfl hi
  have hcheck : ChecksGeometry i w xi xo s := by
    obtain rfl | rfl := hi
    · exact checksGeometry_decode s xi xo r w
    · exact checksGeometry_encode s xi xo r w
  exact ⟨fun hw => hcheck.raises (checkGeometry_eq_invalidWidth hw),
    fun ⟨h1, h64, ho⟩ => hcheck.raises (checkGeometry_eq_invalidOffset h1 h64 ho),
    fun ⟨h1, h64, ho, hb⟩ => hcheck.raises (checkGeometry_eq_storeBounds h1 h64 ho hb)⟩

/-- Settles O38: both commands check the geometry at the width N, which lies in 1..64. -/
theorem valueCodecReportsTheFirstFailingCheck : Obligations.ValueCodecReportsTheFirstFailingCheck := by
  rintro s v xi xo off idx i hcfg rfl rfl hi
  have hcheck : ChecksGeometry i s.cfg.n xi xo s := by
    obtain rfl | rfl := hi
    · exact checksGeometry_ldv s xi xo v
    · exact checksGeometry_stv s xi xo v
  obtain ⟨h1, h64⟩ := wf_width hcfg
  exact ⟨fun ho => hcheck.raises (checkGeometry_eq_invalidOffset h1 h64 ho),
    fun ⟨ho, hb⟩ => hcheck.raises (checkGeometry_eq_storeBounds h1 h64 ho hb)⟩

/-- A store command leaves the instance and the operand registers, so the geometry stays legal. -/
theorem CompletesStore.geometryOk {idx off w n : Nat} {data : Word} {s t : State} {xi xo : XReg}
    (h : CompletesStore idx off w data s t) (hg : GeometryOk s.cfg n (s.getX xo).toNat (s.getX xi).toNat) :
    GeometryOk t.cfg n (t.getX xo).toNat (t.getX xi).toNat := by
  obtain ⟨-, hx, -, -, ⟨hcfg, -, -⟩, -⟩ := h
  rwa [hcfg, hx xo, hx xi]

/-- What a load of the stored field reads: the low `w` bits of the data, and 0 above them (40_codec.md R105). -/
theorem CompletesStore.field_bit {w : Nat} {data : Word} {s t : State} {xi xo : XReg}
    (h : CompletesStore (s.getX xi).toNat (s.getX xo).toNat w data s t) (j : Nat) :
    (decide (j < w) && Memory.streamBit t.mem (64 * (t.getX xi).toNat + (t.getX xo).toNat + j))
      = (decide (j < w) && data.getLsbD j) := by
  obtain ⟨-, hx, -, -, -, hfield, -⟩ := h
  by_cases hj : j < w
  · rw [hx xi, hx xo, hfield j hj]
  · simp [hj]

/-- A canonical value register holds no bit above its N bits (10_state.md R24). -/
theorem getV_bit_of_canonical {s : State} (hv : canonicalV s = true) (r : VReg) (j : Nat) :
    (decide (j < s.cfg.n) && (s.getV r).getLsbD j) = (s.getV r).getLsbD j := by
  by_cases hj : j < s.cfg.n
  · simp [hj]
  · have hlt : (s.getV r).toNat < 2 ^ j :=
      ((canonicalV_iff s).1 hv r).trans_le (Nat.pow_le_pow_right (by omega) (by omega))
    rw [← BitVec.testBit_toNat, Nat.testBit_lt_two_pow hlt, Bool.and_false]

/-- Settles O39: the load reads back, bit by bit, what the store's specification puts in the stream. -/
theorem codecRoundTrip : Obligations.CodecRoundTrip := by
  refine ⟨fun s src d xi xo w hs hg => ?_, fun s src d xi xo hs hg => ?_⟩
  · obtain ⟨-, t, hencode, hstore⟩ := encodeStoresTheField s src xi xo w hs hg
    obtain ⟨-, u, hdecode, -, hread⟩ := decodeReadsTheField t d xi xo w (hstore.geometryOk hg)
    refine ⟨t, u, hencode, hdecode, fun j hj => (hread j hj).trans (hstore.field_bit j), ?_⟩
    obtain ⟨-, -, -, -, -, -, hkept, -⟩ := hstore
    exact hkept
  · obtain ⟨-, t, hstv, hstore⟩ := stvStoresTheField s src xi xo hs hg
    have ⟨_, _, _, _, ⟨hcfg, _, _⟩, _⟩ := hstore
    obtain ⟨hwf, hv, -⟩ := hs
    obtain ⟨-, u, hldv, -, hread⟩ := ldvLoadsTheField t d xi xo (hcfg ▸ hwf) (hcfg ▸ hstore.geometryOk hg)
    refine ⟨t, u, hstv, hldv, BitVec.eq_of_getLsbD_eq fun j hj => ?_⟩
    calc (u.getV d).getLsbD j
        = (decide (j < s.cfg.n) && Memory.streamBit t.mem (64 * (t.getX xi).toNat + (t.getX xo).toNat + j)) := by
          rw [hread j hj, hcfg]
      _ = (decide (j < s.cfg.n) && (s.getV src).getLsbD j) := hstore.field_bit j
      _ = (s.getV src).getLsbD j := getV_bit_of_canonical hv src j

/-- The same state of the instance with SIGNED set to `b` (00_scope.md R6). -/
def State.setSigned (s : State) (b : Bool) : State := { s with cfg := { s.cfg with signed := b } }

/-- The check reads no signedness, so a codec command ignores SIGNED where the work after the check does. -/
theorem withGeometry_setSigned {s : State} {b : Bool} {go go' : Nat → Nat → State} (hgo : ∀ i o, go' i o = (go i o).setSigned b)
    (cmd : Cmd) (w : Nat) (idx off : XReg) :
    (s.setSigned b).withGeometry cmd w idx off go' = (s.withGeometry cmd w idx off go).setSigned b := by
  have hcheck : checkGeometry (s.setSigned b).cfg w (uint64 ((s.setSigned b).getX off)) (uint64 ((s.setSigned b).getX idx))
      = checkGeometry s.cfg w (uint64 (s.getX off)) (uint64 (s.getX idx)) := rfl
  rw [State.withGeometry, State.withGeometry, hcheck]
  cases checkGeometry s.cfg w (uint64 (s.getX off)) (uint64 (s.getX idx)) with
  | none => exact hgo _ _
  | some code => rfl

/-- The step of a codec command with SIGNED set to `b`, where its work commutes with setting SIGNED. -/
theorem exec_setSigned_of_withGeometry {i : Instr} {w : Nat} {xi xo : XReg} {s t : State} {b : Bool} {go go' : Nat → Nat → State}
    (hs : exec i s = .next (s.withGeometry (encode i) w xi xo go))
    (hb : exec i (s.setSigned b) = .next ((s.setSigned b).withGeometry (encode i) w xi xo go'))
    (hgo : ∀ k o, go' k o = (go k o).setSigned b) (h : exec i s = .next t) : exec i (s.setSigned b) = .next (t.setSigned b) := by
  obtain rfl : s.withGeometry (encode i) w xi xo go = t := Host.Outcome.next.inj (hs.symm.trans h)
  rw [hb, withGeometry_setSigned hgo]

/-- Settles O40: the work of each codec command, a register or a store write, reads no signedness either. -/
theorem codecIgnoresSignedness : Obligations.CodecIgnoresSignedness := by
  intro s t b r xi xo v w i hi h
  change exec i (s.setSigned b) = .next (t.setSigned b)
  obtain rfl | rfl | rfl | rfl := hi <;> exact exec_setSigned_of_withGeometry rfl rfl (fun _ _ => rfl) h

end Sys2Proof.Machine
end

section
/-! Every command ends in one of two ways (41_value.md R120, 60_exceptions.md R231, R232): a completion or the fault entry. -/

namespace Sys2Proof.Machine

/-- No end of a command touches what stands outside the unit (60_exceptions.md R250). -/
theorem Ending.sameOutside {i : Instr} {s t : State} (h : Ending i s t) : SameOutside s t := by
  cases h with
  | x d p _ => exact ⟨rfl, rfl, rfl⟩
  | v d p _ _ => exact ⟨rfl, rfl, rfl⟩
  | store idx off w data _ _ => exact ⟨rfl, rfl, rfl⟩
  | rand d z _ => exact ⟨rfl, rfl, rfl⟩
  | fault code _ _ => exact ⟨rfl, rfl, rfl⟩

/-- A command completes or takes the fault entry with a fault code and its own word (60_exceptions.md R231, R232). -/
theorem Ending.succeeds_or_raises {i : Instr} {s t : State} (h : Ending i s t) :
    Succeeds s t ∨ ∃ code, code ≠ .ok ∧ Raises code (encode i) s t := by
  cases h with
  | x d p _ => exact .inl (succeeds_complete (s.setX d p))
  | v d p _ _ => exact .inl (succeeds_complete (s.setV d p))
  | store idx off w data _ _ => exact .inl (succeeds_complete (s.setMem _))
  | rand d z _ => exact .inl (succeeds_complete (s.takeDraw.setV d _))
  | fault code hc _ => exact .inr ⟨code, hc, raises s code (encode i)⟩

/-- Settles O23: four of the five ways a command ends complete it, and the fifth is the fault entry. -/
theorem everyCommandCompletesOrFaultsPrecisely : Obligations.EveryCommandCompletesOrFaultsPrecisely := by
  intro i s
  obtain ⟨t, hexec, hend⟩ := exec_ending i s
  exact ⟨t, hexec, hend.sameOutside, hend.succeeds_or_raises⟩

end Sys2Proof.Machine
end

section
/-! How the pattern functions of 00_scope.md R12 compose: `norm` after `enc64`, `uint64` and `sint64`, and the bits of `enc64` of a value
(10_state.md R24). -/

namespace Sys2Proof.Machine

theorem toNat_enc64 (z : Int) : ((enc64 z).toNat : Int) = z % 2 ^ 64 := by
  rw [enc64, BitVec.toNat_ofInt]
  exact Int.toNat_of_nonneg (Int.emod_nonneg z (by norm_num))

/-- The value of a zero pattern is 0 at every width. -/
theorem val_zero (c : Config) : val c 0 = 0 := by
  have hpos : 0 < 2 ^ (c.n - 1) := Nat.two_pow_pos _
  exact if_neg fun h => Nat.not_le.2 hpos h.2

/-- A pattern from its value: a negative value is `2^N` below its pattern (41_value.md R124). -/
theorem toNat_eq_of_val (c : Config) {p : Word} (hp : p.toNat < 2 ^ c.n) :
    (p.toNat : Int) = if 0 ≤ val c p then val c p else val c p + 2 ^ c.n := by
  have hlt : (p.toNat : Int) < 2 ^ c.n := by exact_mod_cast hp
  unfold val
  split
  · rw [if_neg (by omega)]
    omega
  · rw [if_pos (by omega)]

theorem minv_le_maxv (c : Config) : minv c ≤ maxv c := by
  have hfull : (0 : Int) < 2 ^ c.n := by positivity
  have hhalf : (0 : Int) < 2 ^ (c.n - 1) := by positivity
  unfold minv maxv
  split <;> omega

section
variable {c : Config} (hn : c.n ≤ 64)
include hn

/-- Folding to N bits does not see a fold to 64 bits before it, because `2^N` divides `2^64`. -/
theorem normOf_enc64 (z : Int) : normOf c (enc64 z).toNat = normOf c z := by
  rw [normOf, toNat_enc64, Int.emod_emod_of_dvd z (pow_dvd_pow 2 hn), normOf]

/-- The signed and the unsigned value of a native register fold to one pattern (41_value.md R122). -/
theorem normOf_toInt (p : Word) : normOf c p.toInt = normOf c p.toNat := by
  have hp : enc64 p.toInt = p := BitVec.ofInt_toInt
  rw [← normOf_enc64 hn, hp]

theorem normOf_toNat_of_lt {p : Word} (hp : p.toNat < 2 ^ c.n) : normOf c p.toNat = p := by
  have hval : (normOf c p.toNat).toNat = p.toNat := by
    have hmod : (p.toNat : Int) % 2 ^ c.n = p.toNat := Int.emod_eq_of_lt (by positivity) (by exact_mod_cast hp)
    exact_mod_cast (norm_toNat c hn p.toNat).trans hmod
  exact BitVec.eq_of_toNat_eq hval

end

/-- A signed value is the two's-complement value of the pattern's N bits. -/
theorem val_signed {c : Config} (hs : c.signed = true) (hn : 1 ≤ c.n) {p : Word} (hp : p.toNat < 2 ^ c.n) :
    val c p = (p.setWidth c.n).toInt := by
  have hhalf : 2 ^ c.n = 2 * 2 ^ (c.n - 1) := by exact_mod_cast two_pow_half c.n hn
  rw [BitVec.toInt_eq_toNat_cond, BitVec.toNat_setWidth, Nat.mod_eq_of_lt hp, val]
  by_cases hneg : 2 ^ (c.n - 1) ≤ p.toNat
  · rw [if_pos ⟨hs, hneg⟩, if_neg (by omega)]
    push_cast
    rfl
  · rw [if_neg fun h => hneg h.2, if_pos (by omega)]

theorem val_unsigned {c : Config} (hs : c.signed = false) (p : Word) : val c p = p.toNat :=
  if_neg fun h => Bool.false_ne_true (hs.symm.trans h.1)

/-- `enc64` of a value extends its pattern, with the bit N-1 when signed and with 0 when not (41_value.md R123). -/
theorem enc64_val_bit {c : Config} (hn : 1 ≤ c.n) {p : Word} (hp : p.toNat < 2 ^ c.n) {j : Nat} (hj : j < 64) :
    (enc64 (val c p)).getLsbD j = if j < c.n then p.getLsbD j else c.signed && p.getLsbD (c.n - 1) := by
  cases hs : c.signed with
  | true =>
    have hext : enc64 (val c p) = (p.setWidth c.n).signExtend 64 := by rw [val_signed hs hn hp, enc64, BitVec.signExtend]
    rw [hext, BitVec.getLsbD_signExtend, BitVec.msb_eq_getLsbD_last, BitVec.getLsbD_setWidth, BitVec.getLsbD_setWidth]
    by_cases hjn : j < c.n
    · simp [hj, hjn]
    · simp [hj, hjn, show c.n - 1 < c.n by omega]
  | false =>
    have hext : enc64 (val c p) = p := by rw [val_unsigned hs, enc64, BitVec.ofInt_natCast, BitVec.ofNat_toNat, BitVec.setWidth_eq]
    rw [hext, Bool.false_and]
    split
    · rfl
    · have hlt : p.toNat < 2 ^ j := hp.trans_le (Nat.pow_le_pow_right (by omega) (by omega))
      exact BitVec.testBit_toNat p ▸ Nat.testBit_lt_two_pow hlt

end Sys2Proof.Machine
end

section
/-! The value commands (41_value.md R121 to R131). -/

namespace Sys2Proof.Machine

@[simp] theorem State.vval_completeV_self (s : State) (d : VReg) (p : Word) : (s.completeV d p).vval d = val s.cfg p := by
  rw [State.vval, State.getV_completeV_self, State.cfg_completeV]

/-- A value in range is loaded as it is. -/
theorem State.vval_completeV_norm {s : State} (hw : s.cfg.wf = true) (d : VReg) {z : Int} (hz : minv s.cfg ≤ z ∧ z ≤ maxv s.cfg) :
    (s.completeV d (normOf s.cfg z)).vval d = z := by
  rw [State.vval_completeV_self, val_norm_of_range s.cfg hw z hz]

theorem State.getV_completeV_norm_lt {s : State} (hw : s.cfg.wf = true) (d : VReg) (z : Int) :
    ((s.completeV d (normOf s.cfg z)).getV d).toNat < 2 ^ s.cfg.n := by
  rw [State.getV_completeV_self]
  exact norm_lt s.cfg (wf_width hw).2 z

theorem exec_setraw (s : State) (d : VReg) (a : XReg) :
    exec (.setraw d a) s = .next (s.completeV d (normOf s.cfg (s.getX a).toNat)) := rfl

/-- Settles O27: SETRAW folds the unsigned value, and the signed one folds to the same pattern. -/
theorem setrawNormalizes : Obligations.SetrawNormalizes := by
  intro s d a hw
  refine ⟨rfl, _, exec_setraw s d a, completesV s d _, holdsFolded_completeV s hw d _, ?_,
    fun j hj => ?_⟩
  · rw [← normOf_toInt (wf_width hw).2]
    exact holdsFolded_completeV s hw d _
  · rw [State.getV_completeV_self, normOf_toNat_bit s.cfg _ hj]

/-- Settles O28: GET writes `enc64` of the value, TOBF the pattern itself. -/
theorem getAndTobfReadAValueRegister : Obligations.GetAndTobfReadAValueRegister := by
  intro s d a ⟨hw, hv, _⟩
  have hp : (s.getV a).toNat < 2 ^ s.cfg.n := (canonicalV_iff s).1 hv a
  refine ⟨⟨rfl, _, rfl, completesX s d _, ?_, fun j hj => ?_⟩, ⟨rfl, _, rfl, completesX s d _, ?_, ?_⟩⟩ <;>
    rw [State.getX_completeX_self]
  · exact toNat_enc64 _
  · exact enc64_val_bit (wf_width hw).1 hp hj
  · exact toNat_eq_of_val s.cfg hp

/-- GET then SETRAW restores a canonical value register, in any register (41_value.md R126). -/
theorem get_setraw_restores {s : State} (hw : s.cfg.wf = true) (x : XReg) (d d' : VReg) (hd : (s.getV d).toNat < 2 ^ s.cfg.n) :
    ∃ u v, exec (.get x d) s = .next u ∧ exec (.setraw d' x) u = .next v ∧ v.getV d' = s.getV d ∧ v.vval d' = s.vval d := by
  have hn : s.cfg.n ≤ 64 := (wf_width hw).2
  have hback : normOf s.cfg (enc64 (s.vval d)).toNat = s.getV d := (normOf_enc64 hn _).trans (norm_val s.cfg hn _ hd)
  refine ⟨_, (s.completeX x (enc64 (s.vval d))).completeV d' (s.getV d), rfl, ?_, State.getV_completeV_self _ d' _,
    State.vval_completeV_self _ d' _⟩
  rw [exec_setraw, State.getX_completeX_self, State.cfg_completeX, hback]

/-- TOBF then SETRAW restores a canonical value register, in any register (41_value.md R126). -/
theorem tobf_setraw_restores {s : State} (hw : s.cfg.wf = true) (x : XReg) (d d' : VReg) (hd : (s.getV d).toNat < 2 ^ s.cfg.n) :
    ∃ u v, exec (.tobf x d) s = .next u ∧ exec (.setraw d' x) u = .next v ∧ v.getV d' = s.getV d := by
  refine ⟨_, (s.completeX x (s.getV d)).completeV d' (s.getV d), rfl, ?_, State.getV_completeV_self _ d' _⟩
  rw [exec_setraw, State.getX_completeX_self, State.cfg_completeX, normOf_toNat_of_lt (wf_width hw).2 hd]

/-- Settles O29: the first SETRAW leaves a canonical register, as every value register of a legal state is. -/
theorem normalizationLaws : Obligations.NormalizationLaws := by
  refine ⟨fun s a x d d' hw => ?_, fun s a d x ⟨hw, hv, _⟩ => ?_⟩
  · obtain ⟨u, v, hlaws⟩ := get_setraw_restores (s := s.completeV d (normOf s.cfg (s.getX a).toNat)) hw x d d'
      (State.getV_completeV_norm_lt hw d _)
    exact ⟨_, u, v, exec_setraw s d a, hlaws⟩
  · exact tobf_setraw_restores hw x a d ((canonicalV_iff s).1 hv a)

theorem constructed_eq (c : Config) (p : Word) : constructed c p = if c.signed then p.toInt else p.toNat := by
  rw [constructed, sint64_eq_toInt]
  rfl

theorem exec_setchk_of_range {s : State} (d : VReg) {a : XReg} {z : Int} (hz : constructed s.cfg (s.getX a) = z)
    (h : minv s.cfg ≤ z ∧ z ≤ maxv s.cfg) : exec (.setchk d a) s = .next (s.completeV d (normOf s.cfg z)) := by
  show Host.Outcome.next (s.finishV d _ (setchkResult s.cfg _)) = _
  rw [hz, setchkResult, if_neg (by omega)]
  rfl

theorem exec_setchk_out_of_range {s : State} (d : VReg) {a : XReg} {z : Int} (hz : constructed s.cfg (s.getX a) = z)
    (h : z < minv s.cfg ∨ maxv s.cfg < z) :
    exec (.setchk d a) s = .next (s.raise .parseOverflow (encode (.setchk d a))) := by
  show Host.Outcome.next (s.finishV d _ (setchkResult s.cfg _)) = _
  rw [hz, setchkResult, if_pos h]
  rfl

/-- Settles O30: the range check decides between the two ends. -/
theorem setchkSetsOrRaisesParseOverflow : Obligations.SetchkSetsOrRaisesParseOverflow := by
  intro s d a z hw hz
  have hread : constructed s.cfg (s.getX a) = z := (constructed_eq s.cfg (s.getX a)).trans hz.symm
  refine ⟨rfl, fun hin => ?_, fun hout => ?_⟩
  · exact ⟨_, exec_setchk_of_range d hread hin, completesV s d _, holdsFolded_completeV s hw d z,
      State.vval_completeV_norm hw d hin⟩
  · exact ⟨_, exec_setchk_out_of_range d hread hout, raises s .parseOverflow _⟩

/-- Settles O32: both bounds are in range, so they are loaded as they are. -/
theorem maxbAndMinbLoadTheBounds : Obligations.MaxbAndMinbLoadTheBounds := by
  intro s d hw
  have hle : minv s.cfg ≤ maxv s.cfg := minv_le_maxv s.cfg
  exact ⟨⟨rfl, _, rfl, completesV s d _, State.getV_completeV_norm_lt hw d _, State.vval_completeV_norm hw d ⟨hle, le_rfl⟩⟩,
    ⟨rfl, _, rfl, completesV s d _, State.getV_completeV_norm_lt hw d _, State.vval_completeV_norm hw d ⟨le_rfl, hle⟩⟩⟩

/-- Settles O26: the immediate's range lies inside that of a signed 64-bit number. -/
theorem xliLoadsTheSignExtendedImmediate : Obligations.XliLoadsTheSignExtendedImmediate := by
  intro s d imm hlo hhi
  refine ⟨rfl, _, rfl, completesX s d _, ?_⟩
  rw [State.getX_completeX_self]
  exact BitVec.toInt_ofInt_eq_self (by norm_num) (by norm_num; omega) (by norm_num; omega)

/-- Settles O31: ZERO writes the pattern 0, COPY the source's pattern. -/
theorem zeroAndCopy : Obligations.ZeroAndCopy := by
  intro s d a
  refine ⟨⟨rfl, _, rfl, completesV s d _, State.getV_completeV_self s d _, ?_⟩,
    ⟨rfl, _, rfl, completesV s d _, State.getV_completeV_self s d _, State.vval_completeV_self s d _⟩⟩
  rw [State.vval_completeV_self, val_zero]

end Sys2Proof.Machine
end

section
/-! The bounds `MINV` and `MAXV` (00_scope.md R9) as the arithmetic rules use them: the magnitudes that fit, and a result folded into the
range (R12). -/

namespace Sys2Proof.Machine

theorem minv_signed {c : Config} (hs : c.signed = true) : minv c = -2 ^ (c.n - 1) := by
  rw [minv, if_pos hs]

theorem maxv_signed {c : Config} (hs : c.signed = true) : maxv c = 2 ^ (c.n - 1) - 1 := by
  rw [maxv, if_pos hs]

theorem minv_unsigned {c : Config} (hs : c.signed = false) : minv c = 0 := by
  rw [minv, hs, if_neg Bool.false_ne_true]

theorem maxv_unsigned {c : Config} (hs : c.signed = false) : maxv c = 2 ^ c.n - 1 := by
  rw [maxv, hs, if_neg Bool.false_ne_true]

/-- The signed range holds one negative value more than positive ones. -/
theorem minv_eq_neg_maxv_sub_one {c : Config} (hs : c.signed = true) : minv c = -maxv c - 1 := by
  rw [minv_signed hs, maxv_signed hs]
  ring

theorem minv_nonpos (c : Config) : minv c ≤ 0 := by
  rcases Bool.eq_false_or_eq_true c.signed with hs | hs
  · exact minv_signed hs ▸ neg_nonpos.2 (by positivity)
  · exact (minv_unsigned hs).le

theorem maxv_nonneg (c : Config) : 0 ≤ maxv c := by
  rcases Bool.eq_false_or_eq_true c.signed with hs | hs
  · have hpos : (0 : Int) < 2 ^ (c.n - 1) := by positivity
    exact maxv_signed hs ▸ Int.le_sub_one_of_lt hpos
  · have hpos : (0 : Int) < 2 ^ c.n := by positivity
    exact maxv_unsigned hs ▸ Int.le_sub_one_of_lt hpos

/-- The range holds `2^N` values. -/
theorem maxv_sub_minv {c : Config} (hn : 1 ≤ c.n) : maxv c - minv c = 2 ^ c.n - 1 := by
  rcases Bool.eq_false_or_eq_true c.signed with hs | hs
  · rw [maxv_signed hs, minv_signed hs, two_pow_half c.n hn]
    ring
  · rw [maxv_unsigned hs, minv_unsigned hs, sub_zero]

/-- A result outside the range is held as the value of the range that it is congruent to (42_arith.md R163). -/
theorem val_norm_of_dvd {c : Config} (hw : c.wf = true) {z y : Int} (hy : minv c ≤ y ∧ y ≤ maxv c) (hd : (2 ^ c.n : Int) ∣ z - y) :
    val c (normOf c z) = y := by
  have hmod : z % 2 ^ c.n = y % 2 ^ c.n :=
    Int.emod_eq_emod_iff_emod_sub_eq_zero.2 (Int.emod_eq_zero_of_dvd hd)
  rw [normOf, hmod]
  exact val_norm_of_range c hw y hy

theorem val_norm_maxv_add_one {c : Config} (hw : c.wf = true) : val c (normOf c (maxv c + 1)) = minv c := by
  refine val_norm_of_dvd hw ⟨le_rfl, minv_le_maxv c⟩ ⟨1, ?_⟩
  linarith [maxv_sub_minv (wf_width hw).1]

theorem val_norm_minv_sub_one {c : Config} (hw : c.wf = true) : val c (normOf c (minv c - 1)) = maxv c := by
  refine val_norm_of_dvd hw ⟨minv_le_maxv c, le_rfl⟩ ⟨-1, ?_⟩
  linarith [maxv_sub_minv (wf_width hw).1]

theorem maxv_lt_natAbs_minv {c : Config} (hs : c.signed = true) : maxv c < (minv c).natAbs := by
  have heq : minv c = -maxv c - 1 := minv_eq_neg_maxv_sub_one hs
  omega

section
variable {c : Config} {a : Int} (ha : minv c ≤ a ∧ a ≤ maxv c)
include ha

/-- Signed `MINV` is the only value whose magnitude does not fit (42_arith.md R155, R156). -/
theorem natAbs_le_maxv (h : ¬ (c.signed = true ∧ a = minv c)) : (a.natAbs : Int) ≤ maxv c := by
  rcases Bool.eq_false_or_eq_true c.signed with hs | hs
  · have heq : minv c = -maxv c - 1 := minv_eq_neg_maxv_sub_one hs
    have hne : a ≠ minv c := fun e => h ⟨hs, e⟩
    omega
  · have heq : minv c = 0 := minv_unsigned hs
    omega

/-- Zero and every value between 0 and a value of the range are in the range. -/
theorem range_of_natAbs_le {z : Int} (hle : z.natAbs ≤ a.natAbs) (hsign : 0 ≤ a * z) : minv c ≤ z ∧ z ≤ maxv c := by
  have hmin : minv c ≤ 0 := minv_nonpos c
  have hmax : 0 ≤ maxv c := maxv_nonneg c
  by_cases hz : z = 0
  · omega
  · rcases lt_or_ge a 0 with hneg | hpos
    · have hz0 : z ≤ 0 := nonpos_of_mul_nonneg_right hsign hneg
      omega
    · have hz0 : 0 ≤ z := nonneg_of_mul_nonneg_right hsign (by omega)
      omega

/-- A divisor of a nonzero value fits, but for signed `MINV` (42_arith.md R159). -/
theorem eq_minv_of_dvd_of_maxv_lt (h0 : a ≠ 0) {g : Nat} (hdvd : (g : Int) ∣ a) (hg : maxv c < g) :
    c.signed = true ∧ a = minv c := by
  by_contra hfits
  have hle : g ≤ a.natAbs := Nat.le_of_dvd (Int.natAbs_pos.2 h0) (Int.natCast_dvd.1 hdvd)
  have hmax : (a.natAbs : Int) ≤ maxv c := natAbs_le_maxv ha hfits
  omega

end

end Sys2Proof.Machine
end

section
/-! Truncating division (00_scope.md R12, 42_arith.md R153, R154): what fixes quotient and remainder, and that both fit where DIV and MOD
succeed. -/

namespace Sys2Proof.Machine

/-- The remainder has the sign of the dividend. -/
theorem mul_tmod_nonneg (a b : Int) : 0 ≤ a * a.tmod b := by
  rcases le_total 0 a with ha | ha
  · exact mul_nonneg ha (Int.tmod_nonneg b ha)
  · have hneg : 0 ≤ -a.tmod b := Int.neg_tmod a b ▸ Int.tmod_nonneg b (neg_nonneg.2 ha)
    exact mul_nonneg_of_nonpos_of_nonpos ha (neg_nonneg.1 hneg)

theorem abs_tmod_lt (a : Int) {b : Int} (hb : b ≠ 0) : |a.tmod b| < |b| := by
  rw [Int.abs_eq_natAbs, Int.abs_eq_natAbs, Int.natAbs_tmod]
  exact_mod_cast Nat.mod_lt _ (Int.natAbs_pos.2 hb)

/-- Only a divisor of magnitude 1 leaves the magnitude of a nonzero dividend. -/
theorem natAbs_tdiv_lt {a b : Int} (ha : a ≠ 0) (hb : 1 < b.natAbs) : (a.tdiv b).natAbs < a.natAbs := by
  rw [Int.natAbs_tdiv]
  exact Nat.div_lt_self (Int.natAbs_pos.2 ha) hb

section
variable {c : Config} {a b : Int} (ha : minv c ≤ a ∧ a ≤ maxv c)
include ha

theorem tmod_range : minv c ≤ a.tmod b ∧ a.tmod b ≤ maxv c :=
  range_of_natAbs_le ha (Int.natAbs_tmod a b ▸ Nat.mod_le _ _) (mul_tmod_nonneg a b)

/-- The one quotient of values in range that does not fit is that of signed `MINV` by -1 (42_arith.md R153). -/
theorem tdiv_range (hb : minv c ≤ b) (hb0 : b ≠ 0) (hov : ¬ (c.signed = true ∧ a = minv c ∧ b = -1)) :
    minv c ≤ a.tdiv b ∧ a.tdiv b ≤ maxv c := by
  have hle : (a.tdiv b).natAbs ≤ a.natAbs := Int.natAbs_tdiv_le_natAbs a b
  rcases Bool.eq_false_or_eq_true c.signed with hs | hs
  · have hmin : minv c = -maxv c - 1 := minv_eq_neg_maxv_sub_one hs
    by_cases hmag : a = minv c
    · have hb1 : b ≠ -1 := fun e => hov ⟨hs, hmag, e⟩
      obtain rfl | hbig : b = 1 ∨ 1 < b.natAbs := by omega
      · rwa [Int.tdiv_one]
      · have hmax : 0 ≤ maxv c := maxv_nonneg c
        have hlt : (a.tdiv b).natAbs < a.natAbs := natAbs_tdiv_lt (by omega) hbig
        omega
    · have hfits : (a.natAbs : Int) ≤ maxv c := natAbs_le_maxv ha fun h => hmag h.2
      omega
  · have hmin : minv c = 0 := minv_unsigned hs
    have hnonneg : 0 ≤ a.tdiv b := Int.tdiv_nonneg (by omega) (by omega)
    omega

end

end Sys2Proof.Machine
end

section
/-! The two ends of an arithmetic command: a result through `norm`, or a fault (42_arith.md R150 to R162). -/

namespace Sys2Proof.Machine

section
variable {i : Instr} {s : State} {d : VReg}

theorem folds_of_exec {z : Int} (hw : s.cfg.wf = true) (h : exec i s = .next (s.completeV d (normOf s.cfg z))) :
    ∃ t, exec i s = .next t ∧ CompletesV d s t ∧ HoldsFolded t d z :=
  ⟨_, h, completesV s d _, holdsFolded_completeV s hw d z⟩

theorem holds_of_exec {z : Int} (hw : s.cfg.wf = true) (hz : minv s.cfg ≤ z ∧ z ≤ maxv s.cfg)
    (h : exec i s = .next (s.completeV d (normOf s.cfg z))) :
    ∃ t, exec i s = .next t ∧ CompletesV d s t ∧ (t.getV d).toNat < 2 ^ s.cfg.n ∧ t.vval d = z :=
  ⟨_, h, completesV s d _, State.getV_completeV_norm_lt hw d z, State.vval_completeV_norm hw d hz⟩

theorem raises_of_exec {code : Code} (h : exec i s = .next (s.raise code (encode i))) :
    ∃ t, exec i s = .next t ∧ Raises code (encode i) s t :=
  ⟨_, h, raises s code (encode i)⟩

end

/-- A command whose result is `r`: it writes the pattern to `V[d]`, or takes the fault. -/
def FinishesV (i : Instr) (d : VReg) (s : State) (r : Except Code Word) : Prop := exec i s = .next (s.finishV d (encode i) r)

section
variable {i : Instr} {d : VReg} {s : State} {r : Except Code Word} (h : FinishesV i d s r)
include h

theorem FinishesV.exec_ok {p : Word} (hr : r = .ok p) : exec i s = .next (s.completeV d p) := by
  subst hr
  exact h

theorem FinishesV.exec_error {code : Code} (hr : r = .error code) : exec i s = .next (s.raise code (encode i)) := by
  subst hr
  exact h

theorem FinishesV.folds (hw : s.cfg.wf = true) {z : Int} (hr : r = .ok (normOf s.cfg z)) :
    ∃ t, exec i s = .next t ∧ CompletesV d s t ∧ HoldsFolded t d z :=
  folds_of_exec hw (h.exec_ok hr)

theorem FinishesV.holds (hw : s.cfg.wf = true) {z : Int} (hz : minv s.cfg ≤ z ∧ z ≤ maxv s.cfg) (hr : r = .ok (normOf s.cfg z)) :
    ∃ t, exec i s = .next t ∧ CompletesV d s t ∧ (t.getV d).toNat < 2 ^ s.cfg.n ∧ t.vval d = z :=
  holds_of_exec hw hz (h.exec_ok hr)

theorem FinishesV.raises {code : Code} (hr : r = .error code) : ∃ t, exec i s = .next t ∧ Raises code (encode i) s t :=
  raises_of_exec (h.exec_error hr)

end

section
variable (s : State) (d a b : VReg)

theorem finishesV_div : FinishesV (.div d a b) d s (divisionResult s.cfg (s.vval a) (s.vval b) ((s.vval a).tdiv (s.vval b))) := rfl

theorem finishesV_mod : FinishesV (.mod d a b) d s (divisionResult s.cfg (s.vval a) (s.vval b) ((s.vval a).tmod (s.vval b))) := rfl

theorem finishesV_neg : FinishesV (.neg d a) d s (signResult s.cfg (s.vval a) (-s.vval a)) := rfl

theorem finishesV_abs : FinishesV (.abs d a) d s (signResult s.cfg (s.vval a) |s.vval a|) := by
  rw [← Int.natCast_natAbs]
  rfl

theorem finishesV_gcd : FinishesV (.gcd d a b) d s (representable s.cfg (Int.gcd (s.vval a) (s.vval b))) := rfl

theorem finishesV_lcm : FinishesV (.lcm d a b) d s (representable s.cfg (Int.lcm (s.vval a) (s.vval b))) := by
  rw [← exactLcm_eq]
  rfl

theorem finishesV_pow : FinishesV (.pow d a b) d s (powResult s.cfg (s.vval a) (s.vval b)) := rfl

end

/-! What each check answers. -/

section
variable {c : Config} {a b z : Int}

theorem divisionResult_zero (hb : b = 0) : divisionResult c a b z = .error .divisionByZero := if_pos hb

theorem divisionResult_overflow (h : c.signed = true ∧ a = minv c ∧ b = -1) :
    divisionResult c a b z = .error .arithmeticOverflow := by
  rw [divisionResult, if_neg (by omega), if_pos h]

theorem divisionResult_ok (hb : b ≠ 0) (h : ¬ (c.signed = true ∧ a = minv c ∧ b = -1)) :
    divisionResult c a b z = .ok (normOf c z) := by
  rw [divisionResult, if_neg hb, if_neg h]

theorem signResult_overflow (h : c.signed = true ∧ a = minv c) : signResult c a z = .error .arithmeticOverflow := if_pos h

theorem signResult_ok (h : ¬ (c.signed = true ∧ a = minv c)) : signResult c a z = .ok (normOf c z) := if_neg h

theorem representable_overflow (h : maxv c < z) : representable c z = .error .arithmeticOverflow := if_pos h

theorem representable_ok (h : z ≤ maxv c) : representable c z = .ok (normOf c z) := if_neg (not_lt.2 h)

theorem powResult_fault (h : (a = 0 ∧ b = 0) ∨ b < 0) : powResult c a b = .error .invalidOperation := by
  unfold powResult
  split
  · rfl
  · next h0 => rw [if_pos (h.resolve_left h0)]

theorem powResult_ok (h0 : ¬ (a = 0 ∧ b = 0)) (hb : 0 ≤ b) (hlt : b.toNat < 2 ^ 64) :
    powResult c a b = .ok (normOf c (a ^ b.toNat)) := by
  rw [powResult, if_neg h0, if_neg (not_lt.2 hb), powNorm_eq c a _ hlt]

end

/-- For operands in range the greatest common divisor exceeds `MAXV` in three cases alone (42_arith.md R159). -/
theorem maxv_lt_gcd_iff {c : Config} {a b : Int} (ha : minv c ≤ a ∧ a ≤ maxv c) (hb : minv c ≤ b ∧ b ≤ maxv c) :
    maxv c < Int.gcd a b ↔ c.signed = true ∧ (a = minv c ∧ b = 0 ∨ a = 0 ∧ b = minv c ∨ a = minv c ∧ b = minv c) := by
  constructor
  · intro hg
    have ha' (h0 : a ≠ 0) : c.signed = true ∧ a = minv c := eq_minv_of_dvd_of_maxv_lt ha h0 (Int.gcd_dvd_left a b) hg
    have hb' (h0 : b ≠ 0) : c.signed = true ∧ b = minv c := eq_minv_of_dvd_of_maxv_lt hb h0 (Int.gcd_dvd_right a b) hg
    by_cases ha0 : a = 0 <;> by_cases hb0 : b = 0
    · rw [ha0, hb0, Int.gcd_zero_left] at hg
      exact absurd hg (not_lt.2 (maxv_nonneg c))
    · exact ⟨(hb' hb0).1, .inr (.inl ⟨ha0, (hb' hb0).2⟩)⟩
    · exact ⟨(ha' ha0).1, .inl ⟨(ha' ha0).2, hb0⟩⟩
    · exact ⟨(ha' ha0).1, .inr (.inr ⟨(ha' ha0).2, (hb' hb0).2⟩)⟩
  · rintro ⟨hs, ⟨rfl, rfl⟩ | ⟨rfl, rfl⟩ | ⟨rfl, rfl⟩⟩
    · rw [Int.gcd_zero_right]
      exact maxv_lt_natAbs_minv hs
    · rw [Int.gcd_zero_left]
      exact maxv_lt_natAbs_minv hs
    · rw [Int.gcd_self]
      exact maxv_lt_natAbs_minv hs

end Sys2Proof.Machine
end

section
/-! The arithmetic commands (42_arith.md R150 to R164). -/

namespace Sys2Proof.Machine

/-- Settles O43: quotient and remainder are in range, so they are held as they are, and their three laws are those of truncating
division. -/
theorem divModTruncate : Obligations.DivModTruncate := by
  intro s d a b ⟨hw, hv, _⟩ hb0 hov
  have ha := vval_range hw hv a
  obtain ⟨hbmin, -⟩ := vval_range hw hv b
  obtain ⟨t, hdiv, htc, htlt, htq⟩ := (finishesV_div s d a b).holds hw (tdiv_range ha hbmin hb0 hov) (divisionResult_ok hb0 hov)
  obtain ⟨u, hmod, huc, hult, hur⟩ := (finishesV_mod s d a b).holds hw (tmod_range ha) (divisionResult_ok hb0 hov)
  refine ⟨rfl, rfl, t, u, hdiv, hmod, htc, huc, htlt, hult, ?_⟩
  rw [htq, hur]
  exact ⟨(Int.mul_tdiv_add_tmod _ _).symm, abs_tmod_lt _ hb0, mul_tmod_nonneg _ _⟩

/-- Settles O44: DIV and MOD share one check. -/
theorem divModFault : Obligations.DivModFault := by
  rintro s d a b i (rfl | rfl)
  · exact ⟨fun hb => (finishesV_div s d a b).raises (divisionResult_zero hb),
      fun hs ha hb => (finishesV_div s d a b).raises (divisionResult_overflow ⟨hs, ha, hb⟩)⟩
  · exact ⟨fun hb => (finishesV_mod s d a b).raises (divisionResult_zero hb),
      fun hs ha hb => (finishesV_mod s d a b).raises (divisionResult_overflow ⟨hs, ha, hb⟩)⟩

/-- Settles O46: the greatest common divisor is in range but for the three cases of `maxv_lt_gcd_iff`. -/
theorem gcdIsTheGreatestCommonDivisor : Obligations.GcdIsTheGreatestCommonDivisor := by
  intro s d a b ⟨hw, hv, _⟩
  have hiff := maxv_lt_gcd_iff (vval_range hw hv a) (vval_range hw hv b)
  refine ⟨rfl, ?_⟩
  split
  · next hover => exact (finishesV_gcd s d a b).raises (representable_overflow (hiff.2 hover))
  · next hfits =>
    have hmax := not_lt.1 (mt hiff.1 hfits)
    have hnonneg : (0 : Int) ≤ Int.gcd (s.vval a) (s.vval b) := Int.natCast_nonneg _
    obtain ⟨t, hexec, hc, hlt, hval⟩ :=
      (finishesV_gcd s d a b).holds hw ⟨(minv_nonpos _).trans hnonneg, hmax⟩ (representable_ok hmax)
    refine ⟨t, hexec, hc, hlt, ?_⟩
    rw [hval]
    exact ⟨hnonneg, Int.gcd_dvd_left _ _, Int.gcd_dvd_right _ _, fun k => Int.dvd_coe_gcd⟩

/-- Settles O47: a least common multiple that does not exceed `MAXV` is in range, as it is not negative. -/
theorem lcmIsTheLeastCommonMultiple : Obligations.LcmIsTheLeastCommonMultiple := by
  refine fun s d a b hw => ⟨rfl, fun hover => ?_, fun hmax => ?_⟩
  · exact (finishesV_lcm s d a b).raises (representable_overflow hover)
  · exact (finishesV_lcm s d a b).holds hw ⟨(minv_nonpos _).trans (Int.natCast_nonneg _), hmax⟩ (representable_ok hmax)

/-- Settles O48: an exponent is below `2^64`, so `powNorm` is the folded exact power. -/
theorem powWrapsTheExactPower : Obligations.PowWrapsTheExactPower := by
  refine fun s d a b hw => ⟨rfl, fun hfault => ?_, fun h0 hb => ?_⟩
  · exact (finishesV_pow s d a b).raises (powResult_fault hfault)
  · exact (finishesV_pow s d a b).folds hw (powResult_ok h0 hb (val_toNat_lt s.cfg (s.getV b)))

/-- Settles O45: one check tells the fault from the folded result. -/
theorem negAbsRaiseOnlyOnSignedMinv : Obligations.NegAbsRaiseOnlyOnSignedMinv := by
  refine fun s d a hw => ⟨rfl, rfl, fun hover => ?_, fun hfits => ?_⟩
  · exact ⟨(finishesV_neg s d a).raises (signResult_overflow hover), (finishesV_abs s d a).raises (signResult_overflow hover)⟩
  · exact ⟨(finishesV_neg s d a).folds hw (signResult_ok hfits), (finishesV_abs s d a).folds hw (signResult_ok hfits)⟩

/-- Settles O41: each writes `norm` of its exact result. -/
theorem addSubMulWrap : Obligations.AddSubMulWrap := fun _ _ _ _ hw =>
  ⟨⟨rfl, folds_of_exec hw rfl⟩, ⟨rfl, folds_of_exec hw rfl⟩, ⟨rfl, folds_of_exec hw rfl⟩⟩

theorem exec_succ (s : State) (d a : VReg) : exec (.succ d a) s = .next (s.completeV d (normOf s.cfg (s.vval a + 1))) := rfl

theorem exec_pred (s : State) (d a : VReg) : exec (.pred d a) s = .next (s.completeV d (normOf s.cfg (s.vval a - 1))) := rfl

/-- Settles O42: each writes `norm` of its exact result. -/
theorem succPredWrap : Obligations.SuccPredWrap := fun s d a hw =>
  ⟨⟨rfl, folds_of_exec hw (exec_succ s d a)⟩, ⟨rfl, folds_of_exec hw (exec_pred s d a)⟩⟩

theorem succ_maxv {s : State} (hw : s.cfg.wf = true) (d : VReg) {a : VReg} (ha : s.vval a = maxv s.cfg) :
    ∃ t, exec (.succ d a) s = .next t ∧ t.vval d = minv s.cfg := by
  refine ⟨_, exec_succ s d a, ?_⟩
  rw [State.vval_completeV_self, ha, val_norm_maxv_add_one hw]

theorem pred_minv {s : State} (hw : s.cfg.wf = true) (d : VReg) {a : VReg} (ha : s.vval a = minv s.cfg) :
    ∃ t, exec (.pred d a) s = .next t ∧ t.vval d = maxv s.cfg := by
  refine ⟨_, exec_pred s d a, ?_⟩
  rw [State.vval_completeV_self, ha, val_norm_minv_sub_one hw]

/-- Settles O49: in both signednesses SUCC of `MAXV` is `MINV` and PRED of `MINV` is `MAXV`. -/
theorem wraparoundLaws : Obligations.WraparoundLaws := by
  intro s d a ⟨hw, _⟩
  refine ⟨fun hs => ?_, fun hs => ?_, fun hs => ?_, fun hs => ?_⟩
  · rw [← maxv_signed hs, ← minv_signed hs]
    exact succ_maxv hw d
  · rw [← maxv_signed hs, ← minv_signed hs]
    exact pred_minv hw d
  · rw [← maxv_unsigned hs, ← minv_unsigned hs]
    exact succ_maxv hw d
  · rw [← maxv_unsigned hs, ← minv_unsigned hs]
    exact pred_minv hw d

/-- Settles O50: `-2^(N-1)` is signed `MINV`. -/
theorem overflowDetectionLaws : Obligations.OverflowDetectionLaws := by
  intro s d a b hs ha hb
  have hmin : s.vval a = minv s.cfg := ha.trans (minv_signed hs).symm
  exact ⟨(finishesV_neg s d a).raises (signResult_overflow ⟨hs, hmin⟩),
    (finishesV_abs s d a).raises (signResult_overflow ⟨hs, hmin⟩),
    (finishesV_div s d a b).raises (divisionResult_overflow ⟨hs, hmin, hb⟩)⟩

end Sys2Proof.Machine
end

section
/-! The shift functions of 43_bitops.md R180, one equation per branch, and the shift commands (R181 to R183, R190). -/

namespace Sys2Proof.Machine

section
variable {c : Config} {a k : Int}

theorem shl_of_nonneg (hk : 0 ≤ k) : shl c a k = normOf c (a * 2 ^ (k.toNat % c.n)) := if_neg (not_lt.2 hk)

theorem shl_of_neg (hk : k < 0) : shl c a k = shr c a (-k) := if_pos hk

theorem shrz_of_nonneg (hk : 0 ≤ k) : shrz c a k = shrzDown c a k.toNat := if_neg (not_lt.2 hk)

theorem shrz_of_neg (hk : k < 0) : shrz c a k = normOf c (a * 2 ^ ((-k).toNat % c.n)) := if_pos hk

/-- Unsigned SHR and SHRZ are one function (43_bitops.md R190). -/
theorem shr_unsigned (hs : c.signed = false) : shr c a k = shrz c a k := by
  rw [shr, hs, if_neg Bool.false_ne_true]

theorem shr_signed_of_nonneg (hs : c.signed = true) (hk : 0 ≤ k) : shr c a k = normOf c (a / 2 ^ k.toNat) := by
  rw [shr, if_pos hs, if_neg (not_lt.2 hk), shrDown, Int.shiftRight_eq_div_pow]
  norm_cast

/-- A negative count shifts left in both signednesses. -/
theorem shr_of_neg (hk : k < 0) : shr c a k = normOf c (a * 2 ^ ((-k).toNat % c.n)) := by
  rcases Bool.eq_false_or_eq_true c.signed with hs | hs
  · rw [shr, if_pos hs, if_pos hk, shlUp]
  · rw [shr_unsigned hs, shrz_of_neg hk]

/-- SHRZ divides the pattern: the quotient is a pattern again, so `norm` leaves it as it is (43_bitops.md R183). -/
theorem toNat_shrz_of_nonneg (hn : c.n ≤ 64) (hk : 0 ≤ k) : (shrz c a k).toNat = (normOf c a).toNat / 2 ^ k.toNat := by
  have hlt : (normOf c a).toNat / 2 ^ k.toNat < 2 ^ c.n := (Nat.div_le_self _ _).trans_lt (norm_lt c hn a)
  have hmod : (((normOf c a).toNat / 2 ^ k.toNat : Nat) : Int) % 2 ^ c.n = ((normOf c a).toNat / 2 ^ k.toNat : Nat) :=
    Int.emod_eq_of_lt (by positivity) (by exact_mod_cast hlt)
  rw [shrz_of_nonneg hk, shrzDown, Nat.shiftRight_eq_div_pow]
  exact_mod_cast (norm_toNat c hn _).trans hmod

/-- A left shift by a multiple of N moves nothing. -/
theorem shl_of_dvd (hk : 0 ≤ k) (hmul : c.n ∣ k.toNat) : shl c a k = normOf c a := by
  rw [shl_of_nonneg hk, Nat.mod_eq_zero_of_dvd hmul, pow_zero, mul_one]

end

section
variable (s : State) (d a : VReg) (b : XReg)

theorem exec_shl : exec (.shl d a b) s = .next (s.completeV d (shl s.cfg (s.vval a) (s.getX b).toInt)) := by
  rw [← sint64_eq_toInt]
  rfl

theorem exec_shr : exec (.shr d a b) s = .next (s.completeV d (shr s.cfg (s.vval a) (s.getX b).toInt)) := by
  rw [← sint64_eq_toInt]
  rfl

theorem exec_shrz : exec (.shrz d a b) s = .next (s.completeV d (shrz s.cfg (s.vval a) (s.getX b).toInt)) := by
  rw [← sint64_eq_toInt]
  rfl

end

section
variable {s : State} (hs : LegalState s) (d : VReg)
include hs

/-- Where the result is `norm(z)`, `V[d]` holds the canonical form of `z`. -/
theorem LegalState.holdsFolded_of_eq_norm {p : Word} {z : Int} (hp : p = normOf s.cfg z) : HoldsFolded (s.completeV d p) d z := by
  obtain ⟨hw, -⟩ := hs
  exact hp ▸ holdsFolded_completeV s hw d z

/-- SHRZ by a count `k >= 0` leaves the pattern of `V[a]` divided by `2^k`. -/
theorem LegalState.toNat_getV_completeV_shrz (a : VReg) {k : Int} (hk : 0 ≤ k) :
    ((s.completeV d (shrz s.cfg (s.vval a) k)).getV d).toNat = (s.getV a).toNat / 2 ^ k.toNat := by
  have ⟨hw, _⟩ := hs
  rw [State.getV_completeV_self, toNat_shrz_of_nonneg (wf_width hw).2 hk, norm_vval s hs]

end

/-- Settles O51: a negative count is that of `shr` with the sign turned. -/
theorem shlShiftsModuloTheWidth : Obligations.ShlShiftsModuloTheWidth := by
  rintro s d a b k hs rfl
  refine ⟨rfl, _, exec_shl s d a b, completesV s d _, fun hk => ?_, fun hk hsigned => ?_, fun hk hunsigned => ?_⟩
  · exact hs.holdsFolded_of_eq_norm d (shl_of_nonneg hk)
  · exact hs.holdsFolded_of_eq_norm d ((shl_of_neg hk).trans (shr_signed_of_nonneg hsigned (by omega)))
  · rw [shl_of_neg hk, shr_unsigned hunsigned]
    exact hs.toNat_getV_completeV_shrz d a (by omega)

/-- Settles O52: SHRZ stands in for SHR when unsigned. -/
theorem shrShiftsArithmetically : Obligations.ShrShiftsArithmetically := by
  rintro s d a b k hs rfl
  refine ⟨rfl, _, exec_shr s d a b, completesV s d _, fun hk hsigned => ?_, fun hk hunsigned => ?_, fun hk => ?_⟩
  · exact hs.holdsFolded_of_eq_norm d (shr_signed_of_nonneg hsigned hk)
  · rw [shr_unsigned hunsigned]
    exact hs.toNat_getV_completeV_shrz d a hk
  · exact hs.holdsFolded_of_eq_norm d (shr_of_neg hk)

/-- Settles O53: the N-bit pattern of `V[A]` is `norm` of its value. -/
theorem shrzShiftsThePatternWithZeroFill : Obligations.ShrzShiftsThePatternWithZeroFill := by
  rintro s d a b k hs rfl
  exact ⟨rfl, _, exec_shrz s d a b, completesV s d _, hs.toNat_getV_completeV_shrz d a,
    fun hk => hs.holdsFolded_of_eq_norm d (shrz_of_neg hk)⟩

/-- Settles O54: both counts, N and 0, are multiples of N, and a canonical register holds `norm` of its value. -/
theorem shiftLaws : Obligations.ShiftLaws := by
  refine ⟨fun s d a b hs hcount => ?_, fun s d a b hunsigned => ?_⟩
  · have hk : 0 ≤ (s.getX b).toInt := by omega
    have hmul : s.cfg.n ∣ (s.getX b).toInt.toNat := by
      rcases hcount with h | h <;> rw [h]
      · exact dvd_rfl
      · exact dvd_zero _
    have hkeep : shl s.cfg (s.vval a) (s.getX b).toInt = s.getV a := (shl_of_dvd hk hmul).trans (norm_vval s hs a)
    refine ⟨_, exec_shl s d a b, ?_⟩
    rw [hkeep]
    exact ⟨State.getV_completeV_self s d _, State.vval_completeV_self s d _⟩
  · rw [exec_shr, exec_shrz, shr_unsigned hunsigned]

end Sys2Proof.Machine
end

section
/-! The rotates (43_bitops.md R184, R185): bit by bit, and the position `(j + k) mod N`. -/

namespace Sys2Proof.Machine

/-- A pattern holds no bit at or above its width. -/
theorem getLsbD_of_toNat_lt {p : Word} {n j : Nat} (hp : p.toNat < 2 ^ n) (hj : n ≤ j) : p.getLsbD j = false := by
  rw [← BitVec.testBit_toNat]
  exact Nat.testBit_lt_two_pow (hp.trans_le (Nat.pow_le_pow_right (by omega) hj))

/-- Where bit `j` goes: up by the count reduced modulo N, and round the end. -/
theorem rotate_position {n j : Nat} (hj : j < n) (k : Int) :
    ((j + k) % n).toNat = if j + (k % n).toNat < n then j + (k % n).toNat else j + (k % n).toNat - n := by
  have hr0 : 0 ≤ k % n := Int.emod_nonneg k (by omega)
  have hrn : k % n < n := Int.emod_lt_of_pos k (by omega)
  rw [← Int.add_emod_emod]
  split
  · rw [Int.emod_eq_of_lt (by omega) (by omega)]
    omega
  · rw [← Int.sub_emod_right, Int.emod_eq_of_lt (by omega) (by omega)]
    omega

section
variable {c : Config} (hn : 1 ≤ c.n ∧ c.n ≤ 64) {p : Word} (hp : p.toNat < 2 ^ c.n) (k : Int)
include hn hp

/-- Bit `i` of a rotated pattern comes from `r` places below, or from the top `r` bits where `i < r`. -/
theorem rotl_bit {i : Nat} (hi : i < c.n) :
    (rotl c p k).getLsbD i
      = if i < (k % c.n).toNat then p.getLsbD (c.n - (k % c.n).toNat + i) else p.getLsbD (i - (k % c.n).toNat) := by
  simp only [rotl]
  generalize (k % c.n).toNat = r
  split
  · next h0 => rw [h0, if_neg (Nat.not_lt_zero i), Nat.sub_zero]
  · rw [BitVec.getLsbD_and, BitVec.getLsbD_or, BitVec.getLsbD_shiftLeft, BitVec.getLsbD_ushiftRight, mask_bit _ _ (by omega)]
    by_cases hir : i < r
    · simp [hir, hi]
    · have htop : p.getLsbD (c.n - r + i) = false := getLsbD_of_toNat_lt hp (by omega)
      simp [hir, hi, htop, show i < 64 by omega]

/-- Bit `j` of the pattern stands at bit `(j + k) mod N` of the rotated one. -/
theorem rotl_moves_bit {j : Nat} (hj : j < c.n) : (rotl c p k).getLsbD ((j + k) % c.n).toNat = p.getLsbD j := by
  have hrn : k % c.n < c.n := Int.emod_lt_of_pos k (by omega)
  rw [rotate_position hj]
  split
  · rw [rotl_bit hn hp k (by omega), if_neg (by omega), Nat.add_sub_cancel]
  · rw [rotl_bit hn hp k (by omega), if_pos (by omega)]
    congr 1
    omega

end

section
variable (s : State) (d a : VReg) (b : XReg)

theorem exec_rotl : exec (.rotl d a b) s = .next (s.completeV d (rotl s.cfg (s.getV a) (s.getX b).toInt)) := by
  rw [← sint64_eq_toInt]
  rfl

theorem exec_rotr : exec (.rotr d a b) s = .next (s.completeV d (rotl s.cfg (s.getV a) (-(s.getX b).toInt))) := by
  rw [← sint64_eq_toInt]
  rfl

end

/-- A command that rotates `V[a]` left by `k` (43_bitops.md R184). -/
theorem rotates_of_exec {i : Instr} {s : State} {d a : VReg} {k : Int} (hs : LegalState s)
    (h : exec i s = .next (s.completeV d (rotl s.cfg (s.getV a) k))) :
    ∃ t, exec i s = .next t ∧ CompletesV d s t ∧ (t.getV d).toNat < 2 ^ s.cfg.n
      ∧ ∀ j : Nat, j < s.cfg.n → (t.getV d).getLsbD ((j + k) % s.cfg.n).toNat = (s.getV a).getLsbD j := by
  obtain ⟨hw, hv, -⟩ := hs
  have hn := wf_width hw
  have hp : (s.getV a).toNat < 2 ^ s.cfg.n := (canonicalV_iff s).1 hv a
  refine ⟨_, h, completesV s d _, ?_⟩
  rw [State.getV_completeV_self]
  exact ⟨rotl_lt s.cfg hn.2 _ hp k, fun j hj => rotl_moves_bit hn hp k hj⟩

/-- Settles O55: ROTR is the left rotate by the count with its sign turned. -/
theorem rotatesMoveBitsModuloTheWidth : Obligations.RotatesMoveBitsModuloTheWidth := by
  rintro s d a b k hs rfl
  exact ⟨⟨rfl, rotates_of_exec hs (exec_rotl s d a b)⟩, ⟨rfl, rotates_of_exec hs (exec_rotr s d a b)⟩⟩

end Sys2Proof.Machine
end

section
/-! The bitwise commands (43_bitops.md R186 to R189): NOT inverts the N bits of a pattern, which subtracts it from `2^N - 1`. -/

namespace Sys2Proof.Machine

section
variable {n : Nat} (hn : n ≤ 64) {p : Word} (hp : p.toNat < 2 ^ n)
include hn hp

theorem xor_mask_bit (j : Nat) : (p ^^^ mask n).getLsbD j = (decide (j < n) && !p.getLsbD j) := by
  by_cases hj : j < n
  · rw [BitVec.getLsbD_xor, mask_bit _ _ (by omega)]
    simp [hj]
  · have hlt : (p ^^^ mask n).toNat < 2 ^ n := by
      have hmask := mask_and_lt n hn (mask n)
      rw [BitVec.and_self] at hmask
      rw [BitVec.toNat_xor]
      exact Nat.xor_lt_two_pow hp hmask
    simp [hj, getLsbD_of_toNat_lt hlt (not_lt.1 hj)]

theorem toNat_xor_mask : (p ^^^ mask n).toNat = 2 ^ n - (p.toNat + 1) := by
  refine Nat.eq_of_testBit_eq fun j => ?_
  rw [BitVec.testBit_toNat, xor_mask_bit hn hp, Nat.testBit_two_pow_sub_succ hp, BitVec.testBit_toNat]

end

/-- The value of the inverted pattern (43_bitops.md R189). -/
theorem val_xor_mask {c : Config} (hn : 1 ≤ c.n ∧ c.n ≤ 64) {p : Word} (hp : p.toNat < 2 ^ c.n) :
    val c (p ^^^ mask c.n) = if c.signed then -val c p - 1 else 2 ^ c.n - 1 - val c p := by
  have hnot : (p ^^^ mask c.n).toNat = 2 ^ c.n - (p.toNat + 1) := toNat_xor_mask hn.2 hp
  rcases Bool.eq_false_or_eq_true c.signed with hs | hs
  · have hhalf : 2 ^ c.n = 2 * 2 ^ (c.n - 1) := by exact_mod_cast two_pow_half c.n hn.1
    have hcast : ((2 ^ c.n : Nat) : Int) = 2 ^ c.n := by push_cast; rfl
    rw [if_pos hs, val, val, hnot]
    by_cases hneg : 2 ^ (c.n - 1) ≤ p.toNat
    · rw [if_neg (by omega), if_pos ⟨hs, hneg⟩]
      omega
    · rw [if_pos ⟨hs, by omega⟩, if_neg fun h => hneg h.2]
      omega
  · rw [hs, if_neg Bool.false_ne_true, val_unsigned hs, val_unsigned hs, hnot]
    push_cast [Nat.succ_le_of_lt hp]
    ring

/-- Settles O56: each writes the bitwise result of the patterns, and NOT's value follows from the inverted pattern's. -/
theorem bitwiseCommandsWorkOnPatterns : Obligations.BitwiseCommandsWorkOnPatterns := by
  intro s d a b ⟨hw, hv, _⟩
  have hp : (s.getV a).toNat < 2 ^ s.cfg.n := (canonicalV_iff s).1 hv a
  refine ⟨⟨rfl, _, rfl, completesV s d _, fun j => ?and⟩, ⟨rfl, _, rfl, completesV s d _, fun j => ?or⟩,
    ⟨rfl, _, rfl, completesV s d _, fun j => ?xor⟩, ⟨rfl, _, rfl, completesV s d _, fun j => ?notBits, ?notValue⟩⟩
  case and => rw [State.getV_completeV_self, BitVec.getLsbD_and]
  case or => rw [State.getV_completeV_self, BitVec.getLsbD_or]
  case xor => rw [State.getV_completeV_self, BitVec.getLsbD_xor]
  case notBits => rw [State.getV_completeV_self, xor_mask_bit (wf_width hw).2 hp]
  case notValue => exact (State.vval_completeV_self s d _).trans (val_xor_mask (wf_width hw) hp)

end Sys2Proof.Machine
end

section
/-! The comparison commands (44_compare_random.md R210 to R217): the truth values they write, and CMP's result as the sign of the
difference. -/

namespace Sys2Proof.Machine

section
variable {p q r : Prop} [Decidable p] [Decidable q] [Decidable r]

theorem toNat_truth : (truth (decide p)).toNat = if p then 1 else 0 := by
  by_cases hp : p <;> simp [truth, hp]

theorem truth_eq_one_iff : truth (decide p) = 1 ↔ p := by
  by_cases hp : p <;> simp [truth, hp]

theorem truth_eq_or (h : p ↔ q ∨ r) : truth (decide p) = truth (decide q) ||| truth (decide r) := by
  by_cases hq : q <;> by_cases hr : r <;> simp [truth, h, hq, hr]

end

/-- CMP's result is the sign of the difference (44_compare_random.md R210). -/
theorem sign_sub_eq_ite (x y : Int) : (x - y).sign = if x < y then -1 else if x = y then 0 else 1 := by
  rcases lt_trichotomy x y with hlt | heq | hgt
  · rw [if_pos hlt, Int.sign_eq_neg_one_of_neg (sub_neg.2 hlt)]
  · rw [if_neg heq.not_lt, if_pos heq, Int.sign_eq_zero_iff_zero.2 (sub_eq_zero.2 heq)]
  · rw [if_neg hgt.not_gt, if_neg hgt.ne', Int.sign_eq_one_of_pos (sub_pos.2 hgt)]

/-- A sign is a signed 64-bit number. -/
theorem toInt_enc64_sign (z : Int) : (enc64 z.sign).toInt = z.sign := by
  rcases Int.sign_trichotomy z with h | h | h <;> rw [h] <;> rfl

section
variable (s : State) (d : XReg) (a b : VReg)

theorem exec_cmp : exec (.cmp d a b) s = .next (s.completeX d (enc64 (s.vval a - s.vval b).sign)) := by
  rw [sign_sub_eq_ite]
  rfl

theorem exec_eq : exec (.eq d a b) s = .next (s.completeX d (truth (decide (s.vval a = s.vval b)))) := rfl

theorem exec_ne : exec (.ne d a b) s = .next (s.completeX d (truth (decide (s.vval a ≠ s.vval b)))) := rfl

theorem exec_lt : exec (.lt d a b) s = .next (s.completeX d (truth (decide (s.vval a < s.vval b)))) := rfl

theorem exec_le : exec (.le d a b) s = .next (s.completeX d (truth (decide (s.vval a ≤ s.vval b)))) := rfl

theorem exec_gt : exec (.gt d a b) s = .next (s.completeX d (truth (decide (s.vval b < s.vval a)))) := rfl

theorem exec_ge : exec (.ge d a b) s = .next (s.completeX d (truth (decide (s.vval b ≤ s.vval a)))) := rfl

end

/-- A command that ends with a truth value writes 1 or 0 to its register alone (44_compare_random.md R211 to R216). -/
theorem writesTruth_of_exec {i : Instr} {s : State} {d : XReg} {p : Prop} [Decidable p]
    (h : exec i s = .next (s.completeX d (truth (decide p)))) :
    ∃ t, exec i s = .next t ∧ CompletesX d s t ∧ (t.getX d).toNat = if p then 1 else 0 := by
  refine ⟨_, h, completesX s d _, ?_⟩
  rw [State.getX_completeX_self, toNat_truth]

/-- Settles O57: CMP writes the sign of the difference, the other six the truth value of their relation. -/
theorem comparisonsWriteTheirResult : Obligations.ComparisonsWriteTheirResult := by
  intro s d a b
  refine ⟨⟨rfl, _, exec_cmp s d a b, completesX s d _, ?cmp⟩, ⟨rfl, writesTruth_of_exec (exec_eq s d a b)⟩, ⟨rfl, ?ne⟩,
    ⟨rfl, writesTruth_of_exec (exec_lt s d a b)⟩, ⟨rfl, writesTruth_of_exec (exec_le s d a b)⟩,
    ⟨rfl, writesTruth_of_exec (exec_gt s d a b)⟩, ⟨rfl, writesTruth_of_exec (exec_ge s d a b)⟩⟩
  case cmp => rw [State.getX_completeX_self, toInt_enc64_sign, sign_sub_eq_ite]
  case ne => simpa only [ne_eq, ite_not] using writesTruth_of_exec (exec_ne s d a b)

/-- Exactly one of LT, EQ and GT gives 1 (44_compare_random.md R217). -/
theorem truth_trichotomy (x y : Int) :
    (truth (decide (x < y))).toNat + (truth (decide (x = y))).toNat + (truth (decide (y < x))).toNat = 1 := by
  rw [toNat_truth, toNat_truth, toNat_truth]
  rcases lt_trichotomy x y with hlt | rfl | hgt
  · rw [if_pos hlt, if_neg hlt.ne, if_neg hlt.not_gt]
  · rw [if_neg (lt_irrefl x), if_pos rfl]
  · rw [if_neg hgt.not_gt, if_neg hgt.ne', if_pos hgt]

/-- Settles O58: the laws are those of the order and of the sign of a difference. -/
theorem comparisonLaws : Obligations.ComparisonLaws := by
  intro s d a b
  have hdone (p : Word) : Succeeds s (s.completeX d p) := succeeds_complete (s.setX d p)
  refine ⟨_, _, _, _, _, _, _, exec_cmp s d a b, exec_eq s d a b, exec_ne s d a b, exec_lt s d a b, exec_le s d a b,
    exec_gt s d a b, exec_ge s d a b, ?one, ?cmpLt, ?cmpEq, ?cmpGt, ?le, ?ge, ?ne,
    hdone _, hdone _, hdone _, hdone _, hdone _, hdone _, hdone _⟩ <;>
    simp only [State.getX_completeX_self]
  case one => exact truth_trichotomy _ _
  case cmpLt => rw [toInt_enc64_sign, Int.sign_eq_neg_one_iff_neg, sub_neg, truth_eq_one_iff]
  case cmpEq => rw [toInt_enc64_sign, Int.sign_eq_zero_iff_zero, sub_eq_zero, truth_eq_one_iff]
  case cmpGt => rw [toInt_enc64_sign, Int.sign_eq_one_iff_pos, sub_pos, truth_eq_one_iff]
  case le => exact truth_eq_or le_iff_lt_or_eq
  case ge => exact truth_eq_or (le_iff_lt_or_eq.trans (or_congr_right eq_comm))
  case ne =>
    rw [toNat_truth, toNat_truth, ite_not]
    split <;> rfl

end Sys2Proof.Machine
end

section
/-! RAND (44_compare_random.md R218, R219): a draw in range is written as it is, and the next draw is in range. -/

namespace Sys2Proof.Machine

theorem exec_rand (s : State) (d : VReg) : exec (.rand d) s = .next (s.randWith d s.nextDraw) := rfl

theorem State.getV_randWith_self (s : State) (d : VReg) (r : Int) : (s.randWith d r).getV d = normOf s.cfg r :=
  State.getV_completeV_self s.takeDraw d _

/-- The next draw depends on the state through its parameters and the number of draws taken alone. -/
theorem State.nextDraw_congr {s s' : State} (hcfg : s'.cfg = s.cfg) (hdraws : s'.draws = s.draws) : s'.nextDraw = s.nextDraw := by
  rw [State.nextDraw, State.nextDraw, hcfg, hdraws]

section
variable {s : State} (hw : s.cfg.wf = true)
include hw

theorem State.nextDraw_range : minv s.cfg ≤ s.nextDraw ∧ s.nextDraw ≤ maxv s.cfg :=
  val_range s.cfg (wf_width hw).1 _ (norm_lt s.cfg (wf_width hw).2 _)

theorem State.getV_randWith_lt (d : VReg) (r : Int) : ((s.randWith d r).getV d).toNat < 2 ^ s.cfg.n :=
  State.getV_completeV_norm_lt (s := s.takeDraw) hw d r

theorem State.vval_randWith_of_range (d : VReg) {r : Int} (hr : minv s.cfg ≤ r ∧ r ≤ maxv s.cfg) : (s.randWith d r).vval d = r :=
  State.vval_completeV_norm (s := s.takeDraw) hw d hr

end

/-- Settles O59: RAND is a completion from the state whose draw is taken, and the draw it writes is in range. -/
theorem randWritesAFreeDraw : Obligations.RandWritesAFreeDraw := by
  intro s d hw
  have hdraw : minv s.cfg ≤ s.nextDraw ∧ s.nextDraw ≤ maxv s.cfg := State.nextDraw_range hw
  obtain ⟨hsucceeds, hx, hv, hstore, hdraws, houtside⟩ := completesV s.takeDraw d (normOf s.cfg s.nextDraw)
  obtain ⟨hlo, hhi⟩ : minv s.cfg ≤ (s.randWith d s.nextDraw).vval d ∧ (s.randWith d s.nextDraw).vval d ≤ maxv s.cfg := by
    rwa [State.vval_randWith_of_range hw d hdraw]
  refine ⟨rfl, ⟨_, exec_rand s d, hsucceeds, hx, hv, hstore, houtside, hdraws, State.getV_randWith_lt hw d _, hlo, hhi,
    fun s' t' d' hcfg hcount hexec => ?sameDraw⟩,
    fun r hrlo hrhi => ⟨State.vval_randWith_of_range hw d ⟨hrlo, hrhi⟩, State.getV_randWith_lt hw d r⟩⟩
  case sameDraw =>
    obtain rfl : s'.randWith d' s'.nextDraw = t' := Host.Outcome.next.inj hexec
    rw [State.getV_randWith_self, State.getV_randWith_self, State.nextDraw_congr hcfg hcount, hcfg]

end Sys2Proof.Machine
end

section
/-! The step and the stream (45_control.md R221, R222): every transaction is answered, a running unit executes the word it is issued, and a
stream runs up to its first fault. -/

namespace Sys2Proof.Machine

/-- A running unit executes the command that its word decodes to (60_exceptions.md R250). -/
theorem issue_of_decode {cmd : Cmd} {s : State} {i : Instr} (hrun : statFaulted s.stat = false) (hi : decode cmd = .ok i) :
    issue cmd s = exec i s := by
  simp [issue, hrun, hi]

/-- Settles O7: performing the issue of a word that decodes is executing its command. -/
theorem stepExecutesTheDecodedCommand : Obligations.StepExecutesTheDecodedCommand := by
  intro s cmd rest i hq hrun hi
  calc step s = issue cmd (s.take rest) := step_perform s _ rest hq
    _ = exec i (s.take rest) := issue_of_decode hrun hi

/-- A word issued to a running unit completes, or takes the fault entry with a fault code and itself as FAULTCMD (60_exceptions.md R231,
R232). -/
theorem issue_succeeds_or_raises (cmd : Cmd) {s : State} (hrun : statFaulted s.stat = false) :
    ∃ t, issue cmd s = .next t ∧ (Succeeds s t ∨ ∃ code, code ≠ .ok ∧ Raises code cmd s t) := by
  obtain ⟨hf, -⟩ | ⟨-, -, hissue⟩ | ⟨-, i, hi, hissue⟩ := issue_cases cmd s
  · nomatch hrun.symm.trans hf
  · exact ⟨_, hissue, .inr ⟨.illegalCommand, nofun, raises s _ cmd⟩⟩
  · obtain ⟨t, hexec, hend⟩ := exec_ending i s
    refine ⟨t, hissue.trans hexec, ?_⟩
    rw [← encode_of_decode hi]
    exact hend.succeeds_or_raises

theorem issue_answers_next (cmd : Cmd) (s : State) : ∃ t, issue cmd s = .next t := by
  obtain ⟨-, hrefused⟩ | ⟨hrun, -⟩ | ⟨hrun, -⟩ := issue_cases cmd s
  · exact ⟨_, hrefused⟩
  all_goals
    obtain ⟨t, ht, -⟩ := issue_succeeds_or_raises cmd hrun
    exact ⟨t, ht⟩

/-- Only an issued word could stop the machine: the port performs every other transaction outright. -/
theorem perform_answers_next (act : HostAction) (s : State) : ∃ t, perform act s = .next t := by
  cases act with
  | issue cmd => exact issue_answers_next cmd s
  | _ => exact ⟨_, rfl⟩

/-- Settles O14: an idle step keeps the state, and any other step is a transaction, which is answered. -/
theorem everyStepAnswersANextState : Obligations.EveryStepAnswersANextState := by
  refine ⟨fun s => ?_, step_idle⟩
  cases hq : s.inbox with
  | nil => exact ⟨s, step_idle s hq⟩
  | cons act rest =>
    rw [step_perform s act rest hq]
    exact perform_answers_next act (s.take rest)

/-! `runStream` at a first word, by what becomes of that word. -/

section
variable {cmd : Cmd} {s t : State} (cmds : List Cmd)

theorem runStream_cons_of_halted (hhalted : statFaulted s.stat = true) : runStream (cmd :: cmds) s = (.refused, s) := by
  simp [runStream, hhalted]

theorem runStream_cons_of_completes (hrun : statFaulted s.stat = false) (hissue : issue cmd s = .next t)
    (ht : statFaulted t.stat = false) : runStream (cmd :: cmds) s = runStream cmds t := by
  simp [runStream, hrun, hissue, ht]

theorem runStream_cons_of_faults (hrun : statFaulted s.stat = false) (hissue : issue cmd s = .next t)
    (ht : statFaulted t.stat = true) : runStream (cmd :: cmds) s = (.faulted, t) := by
  simp [runStream, hrun, hissue, ht]

end

/-- CSI after one completed command and `n` more. -/
theorem csi_add_one_add_ofNat (c : Word) (n : Nat) : c + 1 + BitVec.ofNat 64 n = c + BitVec.ofNat 64 (n + 1) := by
  rw [BitVec.add_assoc, Nat.add_comm n 1, BitVec.ofNat_add]
  rfl

/-- The whole stream completes, and CSI counts its words. -/
def StreamCompletes (cmds : List Cmd) (s : State) : Prop :=
  ∃ t, runStream cmds s = (.completed, t) ∧ t.csi = s.csi + BitVec.ofNat 64 cmds.length ∧ statFaulted t.stat = false

/-- The stream completes up to some word, and ends there with that word's fault entry. -/
def StreamFaults (cmds : List Cmd) (s : State) : Prop :=
  ∃ k cmd u t code, cmds[k]? = some cmd ∧ runStream (cmds.take k) s = (.completed, u) ∧ runStream cmds s = (.faulted, t)
    ∧ code ≠ .ok ∧ Raises code cmd u t ∧ t.csi = s.csi + BitVec.ofNat 64 k

section
variable {cmd : Cmd} {s t : State} {cmds : List Cmd} (hrun : statFaulted s.stat = false) (hissue : issue cmd s = .next t)
include hrun hissue

/-- A first word that faults ends the stream at index 0. -/
theorem StreamFaults.of_raises {code : Code} (hcode : code ≠ .ok) (h : Raises code cmd s t) : StreamFaults (cmd :: cmds) s := by
  have ⟨_, hfaulted, _, _, _, hcsi, _⟩ := h
  exact ⟨0, cmd, s, t, code, rfl, rfl, runStream_cons_of_faults cmds hrun hissue hfaulted, hcode, h,
    hcsi.trans (BitVec.add_zero s.csi).symm⟩

variable (ht : statFaulted t.stat = false) (hcsi : t.csi = s.csi + 1)
include ht hcsi

/-- A first word that completes adds one to the count of a stream that completes. -/
theorem StreamCompletes.cons (h : StreamCompletes cmds t) : StreamCompletes (cmd :: cmds) s := by
  obtain ⟨u, hstream, hcount, hu⟩ := h
  refine ⟨u, (runStream_cons_of_completes cmds hrun hissue ht).trans hstream, ?_, hu⟩
  rw [hcount, hcsi, csi_add_one_add_ofNat, List.length_cons]

/-- A first word that completes moves the index of the faulting word by one. -/
theorem StreamFaults.cons (h : StreamFaults cmds t) : StreamFaults (cmd :: cmds) s := by
  obtain ⟨k, bad, u, v, code, hbad, hbefore, hstream, hcode, hraises, hcount⟩ := h
  refine ⟨k + 1, bad, u, v, code, hbad, (runStream_cons_of_completes (cmds.take k) hrun hissue ht).trans hbefore,
    (runStream_cons_of_completes cmds hrun hissue ht).trans hstream, hcode, hraises, ?_⟩
  rw [hcount, hcsi, csi_add_one_add_ofNat]

end

/-- A stream issued to a running unit completes or faults at one of its words (45_control.md R222). -/
theorem streamCompletes_or_streamFaults (cmds : List Cmd) {s : State} (hrun : statFaulted s.stat = false) :
    StreamCompletes cmds s ∨ StreamFaults cmds s := by
  induction cmds generalizing s with
  | nil => exact .inl ⟨s, rfl, (BitVec.add_zero s.csi).symm, hrun⟩
  | cons cmd cmds ih =>
    obtain ⟨t, hissue, ⟨-, hkeep, -, -, hcsi, -⟩ | ⟨code, hcode, hraises⟩⟩ := issue_succeeds_or_raises cmd hrun
    · have ht : statFaulted t.stat = false := hkeep.trans hrun
      exact (ih ht).imp (.cons hrun hissue ht hcsi) (.cons hrun hissue ht hcsi)
    · exact .inr (.of_raises hrun hissue hcode hraises)

/-- Settles O22: by induction on the stream while the unit runs; a halted unit refuses the first word. -/
theorem streamEndsCompletedFaultedOrRefused : Obligations.StreamEndsCompletedFaultedOrRefused :=
  ⟨fun cmds _ hrun => streamCompletes_or_streamFaults cmds hrun, fun _ cmds _ hhalted => runStream_cons_of_halted cmds hhalted⟩

end Sys2Proof.Machine
end

section
/-! The codes a command raises (60_exceptions.md R230): the CODE that its end leaves in STAT is OK or one the table gives it. -/

namespace Sys2Proof.Machine

/-- The status codes have different numbers (60_exceptions.md R230). -/
theorem Code.num_injective : Function.Injective Code.num :=
  Function.LeftInverse.injective (g := fun n => Code.ofNat n.toNat) fun c => by cases c <;> rfl

/-- The four ways to complete leave CODE 0, and the fault entry leaves a code of the command's own. -/
theorem Ending.mayRaise_of_statCode {i : Instr} {s t : State} {code : Code} (hw : s.cfg.wf = true) (hne : code ≠ .ok)
    (h : Ending i s t) (hcode : statCode t.stat = code.num) : mayRaise code i = true := by
  cases h with
  | x | v | store | rand =>
    have hok : code = .ok := Code.num_injective (hcode.symm.trans (statCode_complete s.stat))
    exact absurd hok hne
  | fault own _ hown =>
    obtain rfl : own = code := Code.num_injective ((statCode_raise own s.stat).symm.trans hcode)
    exact hown hw

/-- Settles O24: a fault shows its code in STAT, and `Ending` says which codes a command can leave there. -/
theorem commandsRaiseOnlyTheirCodes : Obligations.CommandsRaiseOnlyTheirCodes := by
  intro i s t code hw hne hexec ⟨hcode, _⟩
  exact (exec_ends hexec).mayRaise_of_statCode hw hne hcode

end Sys2Proof.Machine
end

section
/-! The host port (60_exceptions.md R234, R235, R250, R251): what the step does for each transaction but the issue of a word to a running
unit and reset. -/

namespace Sys2Proof.Machine

/-! The store's transactions on either side of the store's end. -/

section
variable {w : Nat} {s : State}

theorem hostReadStore_of_lt (h : w < s.cfg.nwords) : hostReadStore w s = s.respond (.value64 (Memory.readWord s.mem w)) := if_pos h

theorem hostReadStore_of_le (h : s.cfg.nwords ≤ w) : hostReadStore w s = s.respond .refused := if_neg (not_lt.2 h)

theorem hostWriteStore_of_lt (v : Word) (h : w < s.cfg.nwords) : hostWriteStore w v s = s.setMem (Memory.writeWord s.mem w v) :=
  if_pos h

theorem hostWriteStore_of_le (v : Word) (h : s.cfg.nwords ≤ w) : hostWriteStore w v s = s.respond .refused := if_neg (not_lt.2 h)

end

/-! The step, transaction by transaction. -/

section
variable {s : State} {rest : List HostAction}

theorem step_ack (hq : s.inbox = .ack :: rest) : step s = .next (s.take rest).ack := step_perform s _ rest hq

theorem step_writeX {i : XReg} {v : Word} (hq : s.inbox = .writeX i v :: rest) : step s = .next ((s.take rest).setX i v) :=
  step_perform s _ rest hq

theorem step_readStore {w : Nat} (hq : s.inbox = .readStore w :: rest) : step s = .next (hostReadStore w (s.take rest)) :=
  step_perform s _ rest hq

theorem step_writeStore {w : Nat} {v : Word} (hq : s.inbox = .writeStore w v :: rest) :
    step s = .next (hostWriteStore w v (s.take rest)) :=
  step_perform s _ rest hq

end

/-- A halted unit accepts no word (60_exceptions.md R234). -/
theorem issue_of_halted (cmd : Cmd) {s : State} (hhalted : statFaulted s.stat = true) : issue cmd s = .next (s.respond .refused) :=
  if_pos hhalted

/-- Settles O8: the step issues the word, and a halted unit only answers. -/
theorem haltedUnitAcceptsNoWord : Obligations.HaltedUnitAcceptsNoWord := by
  intro s cmd rest hq hhalted
  calc step s = issue cmd (s.take rest) := step_perform s _ rest hq
    _ = .next ((s.take rest).respond .refused) := issue_of_halted cmd hhalted

theorem State.ack_of_running {s : State} (hrun : statFaulted s.stat = false) : s.ack = s := if_neg (Bool.eq_false_iff.1 hrun)

theorem State.ack_of_halted {s : State} (hhalted : statFaulted s.stat = true) : s.ack = { s with stat := statAck s.stat } :=
  if_pos hhalted

/-- Settles O9: a running unit keeps its state, and a halted one changes `STAT` alone, by `statAck`, which clears FAULTED alone. -/
theorem ackClearsFaultedAlone : Obligations.AckClearsFaultedAlone := by
  intro s rest hq
  cases hf : statFaulted s.stat with
  | false =>
    rw [step_ack hq, State.ack_of_running (s := s.take rest) hf]
    exact ⟨_, rfl, hf, rfl, rfl, rfl, fun _ => rfl, rfl, rfl, sameX_refl s, sameV_refl s, fun _ => rfl, rfl, rfl, rfl⟩
  | true =>
    rw [step_ack hq, State.ack_of_halted (s := s.take rest) hf]
    exact ⟨_, rfl, statFaulted_ack _, statCode_ack _, statErrSeen_ack _, statReserved_ack _, nofun, rfl, rfl, sameX_refl s,
      sameV_refl s, fun _ => rfl, rfl, rfl, rfl⟩

/-- Settles O19: every read is an answer of the port on the state that has taken it from the queue. -/
theorem portReadsReturnTheStateUnchanged : Obligations.PortReadsReturnTheStateUnchanged := by
  intro s rest i w
  refine ⟨step_perform s _ rest, step_perform s _ rest, step_perform s _ rest, step_perform s _ rest, step_perform s _ rest,
    fun hq hw => ?_⟩
  rw [step_readStore hq, hostReadStore_of_lt (s := s.take rest) hw]
  rfl

/-- Settles O20: `State.setX` writes one register and `Memory.writeWord` one word of the store; outside the store the port refuses. -/
theorem portWritesAreExact : Obligations.PortWritesAreExact := by
  intro s rest i w v ⟨_, _, hm, _⟩
  refine ⟨fun hq => ?_, fun hq hw => ?_, ?_⟩
  · exact ⟨_, step_writeX hq, State.getX_setX_self _ i v, fun r hr => State.getX_setX_ne _ v hr, State.getV_setX _ i v,
      State.readByte_setX _ i v, rfl, rfl, rfl, rfl, rfl, rfl⟩
  · have hword : Memory.readWord (Memory.writeWord s.mem w v) w = v := (Memory.readWord_writeWord s.mem hm w v w).trans (if_pos rfl)
    have hbytes : ∀ a, a / 8 ≠ w → Memory.readByte (Memory.writeWord s.mem w v) a = Memory.readByte s.mem a := fun a ha =>
      (Memory.readByte_writeWord s.mem hm w v a).trans (if_neg ha)
    rw [step_writeStore hq, hostWriteStore_of_lt (s := s.take rest) v hw]
    exact ⟨_, rfl, hword, hbytes, State.getX_setMem _ _, State.getV_setMem _ _, rfl, rfl, rfl, rfl, rfl, rfl⟩
  · rintro hw (hq | hq)
    · rw [step_writeStore hq, hostWriteStore_of_le (s := s.take rest) v hw]
      rfl
    · rw [step_readStore hq, hostReadStore_of_le (s := s.take rest) hw]
      rfl

end Sys2Proof.Machine
end
